-- ==== Sys2Proof/Word.lean ====
section
/-! DEFINITION. The word types of the CHIP-8 core: the widths that spec/10_state.md R20 and spec/00_scope.md R15 name. -/

namespace Sys2Proof

/-- An 8-bit register or memory value (10_state R21, R30). -/
abbrev Byte := BitVec 8

/-- A 16-bit value: an instruction word, I, PC, a stack slot (10_state R23, R24, R26). -/
abbrev Word := BitVec 16

/-- A 4-bit field of an instruction: `x`, `y`, `n`, `fam` (00_scope R15). -/
abbrev Nibble := BitVec 4

/-- The 12-bit immediate address field `nnn` (00_scope R15). -/
abbrev Addr := BitVec 12

/-- `zext_16` of the address field (00_scope R11). -/
def Addr.zext (a : Addr) : Word := a.setWidth 16

/-- `zext_16` of a byte (00_scope R11). -/
def Byte.zext (b : Byte) : Word := b.setWidth 16

end Sys2Proof
end

