-- ==== Sys2Proof/Config.lean ====
section
/-! DEFINITION. The parameters of spec/00_scope.md R8, the host operations of spec/10_state.md R40, and the one free value of
the model: the operations the host issues that its script does not name. -/

namespace Sys2Proof

/-- `MEM_SIZE`: addresses 0x000 to 0xFFF (00_scope R8, 10_state R30). -/
@[simp] abbrev Config.memSize : Nat := 4096

/-- `PROG_ORIGIN`: where LOAD places byte 0 and where PC starts (00_scope R8). -/
@[simp] abbrev Config.progOrigin : Nat := 0x200

/-- `MAX_ROM = MEM_SIZE - PROG_ORIGIN` (00_scope R8, 70_reset R283). -/
@[simp] abbrev Config.maxRom : Nat := 3584

/-- `FONT_BASE`: address of glyph 0 (00_scope R8). -/
@[simp] abbrev Config.fontBase : Nat := 0x050

/-- `GLYPH_BYTES` (00_scope R8). -/
@[simp] abbrev Config.glyphBytes : Nat := 5

/-- `STACK_DEPTH` (00_scope R8). -/
@[simp] abbrev Config.stackDepth : Nat := 16

/-- `FB_W` (00_scope R8). -/
@[simp] abbrev Config.fbWidth : Nat := 64

/-- `FB_H` (00_scope R8). -/
@[simp] abbrev Config.fbHeight : Nat := 32

/-- The four host operations of 10_state R40, with their inputs. -/
inductive Machine.HostOp where
  /-- `RESET` (70_reset R280). -/
  | reset
  /-- `LOAD(bytes)` (70_reset R283). -/
  | load (bytes : List Byte)
  /-- `STEP` with the sampled key inputs and the random byte of this STEP (40_step R110, R112). -/
  | step (keys : BitVec 16) (rnd : Byte)
  /-- `TICK` (60_exceptions R262). -/
  | tick
  deriving DecidableEq, Repr, Inhabited

/-- FREE VALUE (assumption 2, DESIGN CHOICE, safe): the n-th operation the host issues beyond its script, with its inputs.
The host chooses freely which operation comes next, the keys it presents and the random byte (10_state R36, R37, R40,
70_reset R297), so nothing constrains this value: as a whole it is any endless schedule. -/
opaque Config.hostOp : Nat → Machine.HostOp

end Sys2Proof
end

