-- ==== Sys2Proof/Syntax.lean ====
section
/-! DEFINITION. The 34 instructions of spec/30_encoding.md R86, their formats and fields (R81), and their assembler
form (R92). A field has exactly the width the encoding gives it, so every operand value is one that R21 and R82 allow. -/

namespace Sys2Proof

/-- The 34 instructions, in the order of 30_encoding R86. `x`, `y` select V registers. Bits the decoder ignores (R85)
are no operand. -/
inductive Instr where
  | cls
  | ret
  | jp (nnn : Addr)
  | call (nnn : Addr)
  | seKk (x : Nibble) (kk : Byte)
  | sneKk (x : Nibble) (kk : Byte)
  | seVy (x y : Nibble)
  | ldKk (x : Nibble) (kk : Byte)
  | addKk (x : Nibble) (kk : Byte)
  | ldVy (x y : Nibble)
  | orVy (x y : Nibble)
  | andVy (x y : Nibble)
  | xorVy (x y : Nibble)
  | addVy (x y : Nibble)
  | subVy (x y : Nibble)
  | shrVx (x : Nibble)
  | subnVy (x y : Nibble)
  | shlVx (x : Nibble)
  | sneVy (x y : Nibble)
  | ldI (nnn : Addr)
  | jpV0 (nnn : Addr)
  | rnd (x : Nibble) (kk : Byte)
  | drw (x y n : Nibble)
  | skp (x : Nibble)
  | sknp (x : Nibble)
  | ldVxDt (x : Nibble)
  | ldVxK (x : Nibble)
  | ldDtVx (x : Nibble)
  | ldStVx (x : Nibble)
  | addIVx (x : Nibble)
  | ldFVx (x : Nibble)
  | ldBVx (x : Nibble)
  | storeRegs (x : Nibble)
  | loadRegs (x : Nibble)
  deriving DecidableEq, Repr

/-- The formats of 30_encoding R81. -/
inductive Format where
  | op | nnn | xkk | xy | xys | xyn | xs
  deriving DecidableEq, Repr

/-- The format of each instruction (30_encoding R81, R86). -/
def Instr.format : Instr → Format
  | .cls | .ret => .op
  | .jp _ | .call _ | .ldI _ | .jpV0 _ => .nnn
  | .seKk _ _ | .sneKk _ _ | .ldKk _ _ | .addKk _ _ | .rnd _ _ => .xkk
  | .seVy _ _ | .sneVy _ _ => .xy
  | .ldVy _ _ | .orVy _ _ | .andVy _ _ | .xorVy _ _ | .addVy _ _ | .subVy _ _ | .shrVx _ | .subnVy _ _ | .shlVx _ => .xys
  | .drw _ _ _ => .xyn
  | .skp _ | .sknp _ | .ldVxDt _ | .ldVxK _ | .ldDtVx _ | .ldStVx _ | .addIVx _ | .ldFVx _ | .ldBVx _
  | .storeRegs _ | .loadRegs _ => .xs

/-- One operand field of an instruction word: bits `hi` down to `lo` hold `value` (00_scope R15). -/
structure OperandField where
  hi : Nat
  lo : Nat
  value : Nat
  deriving DecidableEq, Repr

/-- The field `x`, bits 11 to 8 (00_scope R15). -/
def OperandField.ofX (x : Nibble) : OperandField := ⟨11, 8, x.toNat⟩

/-- The field `y`, bits 7 to 4 (00_scope R15). -/
def OperandField.ofY (y : Nibble) : OperandField := ⟨7, 4, y.toNat⟩

/-- The field `n`, bits 3 to 0 (00_scope R15). -/
def OperandField.ofN (n : Nibble) : OperandField := ⟨3, 0, n.toNat⟩

/-- The field `kk`, bits 7 to 0 (00_scope R15). -/
def OperandField.ofKk (kk : Byte) : OperandField := ⟨7, 0, kk.toNat⟩

/-- The field `nnn`, bits 11 to 0 (00_scope R15). -/
def OperandField.ofNnn (nnn : Addr) : OperandField := ⟨11, 0, nnn.toNat⟩

/-- The operand fields of an instruction, in the order of its mnemonic (spec/opcode_table.json). -/
def Instr.fields : Instr → List OperandField
  | .cls | .ret => []
  | .jp a | .call a | .ldI a | .jpV0 a => [.ofNnn a]
  | .seKk x kk | .sneKk x kk | .ldKk x kk | .addKk x kk | .rnd x kk => [.ofX x, .ofKk kk]
  | .seVy x y | .sneVy x y | .ldVy x y | .orVy x y | .andVy x y | .xorVy x y | .addVy x y | .subVy x y
  | .subnVy x y => [.ofX x, .ofY y]
  | .drw x y n => [.ofX x, .ofY y, .ofN n]
  | .shrVx x | .shlVx x | .skp x | .sknp x | .ldVxDt x | .ldVxK x | .ldDtVx x | .ldStVx x | .addIVx x | .ldFVx x
  | .ldBVx x | .storeRegs x | .loadRegs x => [.ofX x]

/-- A hexadecimal digit as the listings of the spec write it (30_encoding R92). -/
def hexDigit (d : Nat) : Char := ['0', '1', '2', '3', '4', '5', '6', '7', '8', '9', 'A', 'B', 'C', 'D', 'E', 'F'].getD d '0'

/-- `V` and one hexadecimal digit (10_state R21). -/
def regName (r : Nibble) : List Char := ['V', hexDigit r.toNat]

/-- A hexadecimal numeral of the given number of digits with the `0x` prefix (30_encoding R92). -/
def hexNumeral (digits value : Nat) : List Char :=
  '0' :: 'x' :: (List.range digits).map (fun k => hexDigit (value / 16 ^ (digits - 1 - k) % 16))

/-- The assembler form of an instruction, character by character: the mnemonic column of 30_encoding R86 as R92 spells
operands (the first operand is the destination, `JP V0,nnn` names V0 literally, SHR and SHL take one operand). -/
def Instr.asm : Instr → List Char
  | .cls => "CLS".toList
  | .ret => "RET".toList
  | .jp a => "JP ".toList ++ hexNumeral 3 a.toNat
  | .call a => "CALL ".toList ++ hexNumeral 3 a.toNat
  | .seKk x kk => "SE ".toList ++ regName x ++ [','] ++ hexNumeral 2 kk.toNat
  | .sneKk x kk => "SNE ".toList ++ regName x ++ [','] ++ hexNumeral 2 kk.toNat
  | .seVy x y => "SE ".toList ++ regName x ++ [','] ++ regName y
  | .ldKk x kk => "LD ".toList ++ regName x ++ [','] ++ hexNumeral 2 kk.toNat
  | .addKk x kk => "ADD ".toList ++ regName x ++ [','] ++ hexNumeral 2 kk.toNat
  | .ldVy x y => "LD ".toList ++ regName x ++ [','] ++ regName y
  | .orVy x y => "OR ".toList ++ regName x ++ [','] ++ regName y
  | .andVy x y => "AND ".toList ++ regName x ++ [','] ++ regName y
  | .xorVy x y => "XOR ".toList ++ regName x ++ [','] ++ regName y
  | .addVy x y => "ADD ".toList ++ regName x ++ [','] ++ regName y
  | .subVy x y => "SUB ".toList ++ regName x ++ [','] ++ regName y
  | .shrVx x => "SHR ".toList ++ regName x
  | .subnVy x y => "SUBN ".toList ++ regName x ++ [','] ++ regName y
  | .shlVx x => "SHL ".toList ++ regName x
  | .sneVy x y => "SNE ".toList ++ regName x ++ [','] ++ regName y
  | .ldI a => "LD I,".toList ++ hexNumeral 3 a.toNat
  | .jpV0 a => "JP V0,".toList ++ hexNumeral 3 a.toNat
  | .rnd x kk => "RND ".toList ++ regName x ++ [','] ++ hexNumeral 2 kk.toNat
  | .drw x y n => "DRW ".toList ++ regName x ++ [','] ++ regName y ++ [','] ++ hexNumeral 1 n.toNat
  | .skp x => "SKP ".toList ++ regName x
  | .sknp x => "SKNP ".toList ++ regName x
  | .ldVxDt x => "LD ".toList ++ regName x ++ ",DT".toList
  | .ldVxK x => "LD ".toList ++ regName x ++ ",K".toList
  | .ldDtVx x => "LD DT,".toList ++ regName x
  | .ldStVx x => "LD ST,".toList ++ regName x
  | .addIVx x => "ADD I,".toList ++ regName x
  | .ldFVx x => "LD F,".toList ++ regName x
  | .ldBVx x => "LD B,".toList ++ regName x
  | .storeRegs x => "LD [I],".toList ++ regName x
  | .loadRegs x => "LD ".toList ++ regName x ++ ",[I]".toList

end Sys2Proof
end

