-- ==== Sys2Proof/WellFormed.lean ====
section
/-! DEFINITION. What is well formed: an instruction whose operand values fit their fields (00_scope R15), a word that is
the canonical encoding of its kind (30_encoding R85), a program image that LOAD accepts (70_reset R283). -/

namespace Sys2Proof

/-- The value fits the bits of its field. -/
def OperandField.fits (f : OperandField) : Bool := decide (f.value < 2 ^ (f.hi + 1 - f.lo))

/-- Every operand fits its field. The types of `Instr` already see to it (30_encoding R82: every value of a field is an
operand value), so this holds of every instruction (Sys2Proof.Laws.wf_all); it is kept as the check a raw field is held to. -/
def Instr.wf (i : Instr) : Bool := i.fields.all OperandField.fits

/-- The bits of a word that decode ignores are all 0 (30_encoding R85): bits 11:8 in family 0, the low nibble in families
5 and 9, the y field of SHR and SHL (the y field is assembled as 0, R92). -/
def canonicalWord (op : Word) : Bool :=
  match (op.extractLsb' 12 4).toNat with
  | 0x0 => op.extractLsb' 8 4 == 0
  | 0x5 => op.extractLsb' 0 4 == 0
  | 0x8 =>
    match (op.extractLsb' 0 4).toNat with
    | 0x6 => op.extractLsb' 4 4 == 0
    | 0xE => op.extractLsb' 4 4 == 0
    | _ => true
  | 0x9 => op.extractLsb' 0 4 == 0
  | _ => true

/-- A program image is at most `MAX_ROM` = 3584 bytes long (70_reset R283, R284). -/
def imageFits (bytes : List Byte) : Bool := decide (bytes.length ≤ Config.maxRom)

end Sys2Proof
end

