-- ==== Sys2Proof/Decode.lean ====
section
/-! DEFINITION. The decoder of spec/30_encoding.md R83 to R91 and the encoder of R81 and R86. The numeric opcode values
are the spec's G1 (assumption 6); which discriminator each family uses is the spec's D2 (assumption 7). -/

namespace Sys2Proof

/-- `fam`, op[15:12] (00_scope R15). -/
def fieldFam (op : Word) : Nibble := op.extractLsb' 12 4

/-- `x`, op[11:8] (00_scope R15). -/
def fieldX (op : Word) : Nibble := op.extractLsb' 8 4

/-- `y`, op[7:4] (00_scope R15). -/
def fieldY (op : Word) : Nibble := op.extractLsb' 4 4

/-- `n`, op[3:0] (00_scope R15). -/
def fieldN (op : Word) : Nibble := op.extractLsb' 0 4

/-- `kk`, op[7:0] (00_scope R15). -/
def fieldKk (op : Word) : Byte := op.extractLsb' 0 8

/-- `nnn`, op[11:0] (00_scope R15). -/
def fieldNnn (op : Word) : Addr := op.extractLsb' 0 12

/-- Family 0: the low byte selects (30_encoding R84, R88); bits 11:8 are ignored (R85). -/
def decodeFamily0 (op : Word) : Option Instr :=
  match (fieldKk op).toNat with
  | 0xE0 => some .cls
  | 0xEE => some .ret
  | _ => none

/-- Family 8: the low nibble selects (30_encoding R84, R88). -/
def decodeFamily8 (op : Word) : Option Instr :=
  match (fieldN op).toNat with
  | 0x0 => some (.ldVy (fieldX op) (fieldY op))
  | 0x1 => some (.orVy (fieldX op) (fieldY op))
  | 0x2 => some (.andVy (fieldX op) (fieldY op))
  | 0x3 => some (.xorVy (fieldX op) (fieldY op))
  | 0x4 => some (.addVy (fieldX op) (fieldY op))
  | 0x5 => some (.subVy (fieldX op) (fieldY op))
  | 0x6 => some (.shrVx (fieldX op))
  | 0x7 => some (.subnVy (fieldX op) (fieldY op))
  | 0xE => some (.shlVx (fieldX op))
  | _ => none

/-- Family E: the low byte selects (30_encoding R84, R88). -/
def decodeFamilyE (op : Word) : Option Instr :=
  match (fieldKk op).toNat with
  | 0x9E => some (.skp (fieldX op))
  | 0xA1 => some (.sknp (fieldX op))
  | _ => none

/-- Family F: the low byte selects (30_encoding R84, R88). -/
def decodeFamilyF (op : Word) : Option Instr :=
  match (fieldKk op).toNat with
  | 0x07 => some (.ldVxDt (fieldX op))
  | 0x0A => some (.ldVxK (fieldX op))
  | 0x15 => some (.ldDtVx (fieldX op))
  | 0x18 => some (.ldStVx (fieldX op))
  | 0x1E => some (.addIVx (fieldX op))
  | 0x29 => some (.ldFVx (fieldX op))
  | 0x33 => some (.ldBVx (fieldX op))
  | 0x55 => some (.storeRegs (fieldX op))
  | 0x65 => some (.loadRegs (fieldX op))
  | _ => none

/-- Decode of a fetched word (30_encoding R83, R88): the top nibble selects the family; families 0, 8, E and F have a
secondary discriminator; `none` is an unknown word (R90). Reads no state. -/
def decodeWord (op : Word) : Option Instr :=
  match (fieldFam op).toNat with
  | 0x0 => decodeFamily0 op
  | 0x1 => some (.jp (fieldNnn op))
  | 0x2 => some (.call (fieldNnn op))
  | 0x3 => some (.seKk (fieldX op) (fieldKk op))
  | 0x4 => some (.sneKk (fieldX op) (fieldKk op))
  | 0x5 => some (.seVy (fieldX op) (fieldY op))
  | 0x6 => some (.ldKk (fieldX op) (fieldKk op))
  | 0x7 => some (.addKk (fieldX op) (fieldKk op))
  | 0x8 => decodeFamily8 op
  | 0x9 => some (.sneVy (fieldX op) (fieldY op))
  | 0xA => some (.ldI (fieldNnn op))
  | 0xB => some (.jpV0 (fieldNnn op))
  | 0xC => some (.rnd (fieldX op) (fieldKk op))
  | 0xD => some (.drw (fieldX op) (fieldY op) (fieldN op))
  | 0xE => decodeFamilyE op
  | _ => decodeFamilyF op

/-- The 16-bit word of two consecutive bytes: the byte at the lower address is the high one (20_memory R51). -/
def wordOfBytes (hi lo : Byte) : Word := hi ++ lo

/-- The byte stored at the lower address (20_memory R51). -/
def highByte (op : Word) : Byte := op.extractLsb' 8 8

/-- The byte stored at the higher address (20_memory R51). -/
def lowByte (op : Word) : Byte := op.extractLsb' 0 8

/-- What decoding a list of bytes answers: an instruction with the bytes after it, or a rejection by name. -/
inductive Decoded where
  /-- The first two bytes are this instruction. -/
  | instr (i : Instr) (rest : List Byte)
  /-- The first two bytes are an unknown word (30_encoding R90). -/
  | unknownOpcode (raw : Word)
  /-- Fewer than two bytes are left. A STEP never meets it: the fetch checks that both bytes exist (20_memory R54). -/
  | truncated
  deriving DecidableEq, Repr

/-- Decode of any bytes: every instruction is two bytes, big-endian (30_encoding R80). -/
def decode : List Byte → Decoded
  | hi :: lo :: rest =>
    match decodeWord (wordOfBytes hi lo) with
    | some i => .instr i rest
    | none => .unknownOpcode (wordOfBytes hi lo)
  | _ => .truncated

/-- The instruction the decoder reads from a word numbered as spec/opcode_table.json numbers it: `w`'s bits from `nbits`
on are 0, the two bytes are laid out high byte first (20_memory R51) and given to `decode`. -/
def decodeTableWord (nbits w : Nat) : Option Instr :=
  let op : Word := BitVec.ofNat 16 (w % 2 ^ nbits)
  match decode [highByte op, lowByte op] with
  | .instr i _ => some i
  | _ => none

/-- Format `NNN` of 30_encoding R81. -/
def packNnn (fam : Nibble) (nnn : Addr) : Word := fam ++ nnn

/-- Formats `XKK` and `XS` of 30_encoding R81 (and `OP`, with the ignored bits 0). -/
def packXkk (fam x : Nibble) (kk : Byte) : Word := fam ++ x ++ kk

/-- Formats `XY`, `XYS` and `XYN` of 30_encoding R81. -/
def packXyn (fam x y n : Nibble) : Word := fam ++ x ++ y ++ n

/-- The canonical word of an instruction (30_encoding R86); ignored bits are 0 (R85, R92). -/
def encode : Instr → Word
  | .cls => packXkk 0x0 0x0 0xE0
  | .ret => packXkk 0x0 0x0 0xEE
  | .jp nnn => packNnn 0x1 nnn
  | .call nnn => packNnn 0x2 nnn
  | .seKk x kk => packXkk 0x3 x kk
  | .sneKk x kk => packXkk 0x4 x kk
  | .seVy x y => packXyn 0x5 x y 0x0
  | .ldKk x kk => packXkk 0x6 x kk
  | .addKk x kk => packXkk 0x7 x kk
  | .ldVy x y => packXyn 0x8 x y 0x0
  | .orVy x y => packXyn 0x8 x y 0x1
  | .andVy x y => packXyn 0x8 x y 0x2
  | .xorVy x y => packXyn 0x8 x y 0x3
  | .addVy x y => packXyn 0x8 x y 0x4
  | .subVy x y => packXyn 0x8 x y 0x5
  | .shrVx x => packXyn 0x8 x 0x0 0x6
  | .subnVy x y => packXyn 0x8 x y 0x7
  | .shlVx x => packXyn 0x8 x 0x0 0xE
  | .sneVy x y => packXyn 0x9 x y 0x0
  | .ldI nnn => packNnn 0xA nnn
  | .jpV0 nnn => packNnn 0xB nnn
  | .rnd x kk => packXkk 0xC x kk
  | .drw x y n => packXyn 0xD x y n
  | .skp x => packXkk 0xE x 0x9E
  | .sknp x => packXkk 0xE x 0xA1
  | .ldVxDt x => packXkk 0xF x 0x07
  | .ldVxK x => packXkk 0xF x 0x0A
  | .ldDtVx x => packXkk 0xF x 0x15
  | .ldStVx x => packXkk 0xF x 0x18
  | .addIVx x => packXkk 0xF x 0x1E
  | .ldFVx x => packXkk 0xF x 0x29
  | .ldBVx x => packXkk 0xF x 0x33
  | .storeRegs x => packXkk 0xF x 0x55
  | .loadRegs x => packXkk 0xF x 0x65

/-- The two bytes of an instruction, lower address first (20_memory R51). -/
def encodeBytes (i : Instr) : List Byte := [highByte (encode i), lowByte (encode i)]

/-- The mask and match columns of the instruction table (30_encoding R86): a word selects the row exactly when
`op AND mask = match`. Written apart from `decodeWord`, so that the two can be held against each other. -/
def maskAndMatch : Instr → Word × Word
  | .cls => (0xF0FF, 0x00E0)
  | .ret => (0xF0FF, 0x00EE)
  | .jp _ => (0xF000, 0x1000)
  | .call _ => (0xF000, 0x2000)
  | .seKk _ _ => (0xF000, 0x3000)
  | .sneKk _ _ => (0xF000, 0x4000)
  | .seVy _ _ => (0xF000, 0x5000)
  | .ldKk _ _ => (0xF000, 0x6000)
  | .addKk _ _ => (0xF000, 0x7000)
  | .ldVy _ _ => (0xF00F, 0x8000)
  | .orVy _ _ => (0xF00F, 0x8001)
  | .andVy _ _ => (0xF00F, 0x8002)
  | .xorVy _ _ => (0xF00F, 0x8003)
  | .addVy _ _ => (0xF00F, 0x8004)
  | .subVy _ _ => (0xF00F, 0x8005)
  | .shrVx _ => (0xF00F, 0x8006)
  | .subnVy _ _ => (0xF00F, 0x8007)
  | .shlVx _ => (0xF00F, 0x800E)
  | .sneVy _ _ => (0xF000, 0x9000)
  | .ldI _ => (0xF000, 0xA000)
  | .jpV0 _ => (0xF000, 0xB000)
  | .rnd _ _ => (0xF000, 0xC000)
  | .drw _ _ _ => (0xF000, 0xD000)
  | .skp _ => (0xF0FF, 0xE09E)
  | .sknp _ => (0xF0FF, 0xE0A1)
  | .ldVxDt _ => (0xF0FF, 0xF007)
  | .ldVxK _ => (0xF0FF, 0xF00A)
  | .ldDtVx _ => (0xF0FF, 0xF015)
  | .ldStVx _ => (0xF0FF, 0xF018)
  | .addIVx _ => (0xF0FF, 0xF01E)
  | .ldFVx _ => (0xF0FF, 0xF029)
  | .ldBVx _ => (0xF0FF, 0xF033)
  | .storeRegs _ => (0xF0FF, 0xF055)
  | .loadRegs _ => (0xF0FF, 0xF065)

end Sys2Proof
end

