-- ==== Sys2Proof/Machine/Font.lean ====
section
/-! DEFINITION. The font table of spec/10_state.md R33, sixteen glyphs of five bytes. The bytes are the spec's general
knowledge G2, adopted by its decision D27 (assumption 8). -/

namespace Sys2Proof.Machine

/-- `FONT_TABLE`: glyph g is bytes 5g to 5g + 4, top row first (10_state R33). -/
def fontTable : List Byte :=
  [0xF0, 0x90, 0x90, 0x90, 0xF0] ++ [0x20, 0x60, 0x20, 0x20, 0x70] ++
  [0xF0, 0x10, 0xF0, 0x80, 0xF0] ++ [0xF0, 0x10, 0xF0, 0x10, 0xF0] ++
  [0x90, 0x90, 0xF0, 0x10, 0x10] ++ [0xF0, 0x80, 0xF0, 0x10, 0xF0] ++
  [0xF0, 0x80, 0xF0, 0x90, 0xF0] ++ [0xF0, 0x10, 0x20, 0x40, 0x40] ++
  [0xF0, 0x90, 0xF0, 0x90, 0xF0] ++ [0xF0, 0x90, 0xF0, 0x10, 0xF0] ++
  [0xF0, 0x90, 0xF0, 0x90, 0x90] ++ [0xE0, 0x90, 0xE0, 0x90, 0xE0] ++
  [0xF0, 0x80, 0x80, 0x80, 0xF0] ++ [0xE0, 0x90, 0x90, 0x90, 0xE0] ++
  [0xF0, 0x80, 0xF0, 0x80, 0xF0] ++ [0xF0, 0x80, 0xF0, 0x80, 0x80]

/-- What the byte at an address holds after RESET: the font in 0x050 to 0x09F, zero elsewhere (10_state R34, 20_memory
R60). -/
def resetByte (a : Nat) : Byte :=
  if Config.fontBase ≤ a ∧ a < Config.fontBase + 80 then fontTable.getD (a - Config.fontBase) 0 else 0

end Sys2Proof.Machine
end

