-- ==== Sys2Proof/Machine/State.lean ====
section
/-! DEFINITION. The state of the core (spec/10_state.md R20), its input ports and result port (R36, R37, R41), and the
host that drives it, held as plain data (R40, assumption 1). -/

namespace Sys2Proof.Machine

/-- The five faults of 60_exceptions R240. -/
inductive CoreFault where
  /-- LOAD of more than 3584 bytes (R241). -/
  | romTooLarge
  /-- A fetch, sprite read or indexed access outside 0x000 to 0xFFF (R242). -/
  | addressOutOfRange
  /-- The fetched word selects no instruction; `raw` is the whole word (R243). -/
  | unknownOpcode (raw : Word)
  /-- CALL with sixteen entries on the stack (R244). -/
  | stackOverflow
  /-- RET with an empty stack (R245). -/
  | stackUnderflow
  deriving DecidableEq, Repr

/-- The result an operation returns to the host (10_state R41). -/
inductive OpResult where
  | ok
  /-- `LD Vx,K` found no key pressed; no fault (60_exceptions R246). -/
  | awaitingInput
  | fault (f : CoreFault)
  deriving DecidableEq, Repr

/-- Memory as (address, byte) cells; an unlisted address reads as its reset content (`Memory.unlisted` in
Machine/Ops.lean). The canonical form is `Memory.wf` there. -/
abbrev Memory := List Host.Cell

/-- The framebuffer: row y is entry y, column x is bit x of the row (10_state R29, assumption 20). -/
abbrev Framebuffer := Vector (BitVec 64) 32

/-- The machine. The first nine fields are the whole state of the core (10_state R20); `keys`, `rnd` and `result` are
its ports (R36, R37, R41); `script` and `draws` are the model's own: the host that drives it (assumptions 1, 2). -/
structure State where
  /-- V0 to VF (R21); VF is also the flag (R22). -/
  v : Vector Byte 16
  /-- The index register I (R23). -/
  i : Word
  /-- The program counter (R24). -/
  pc : Word
  /-- The number of valid stack entries, 0 to 16 (R26). -/
  sp : Fin 17
  /-- The call stack slots (R26). -/
  stack : Vector Word 16
  /-- The delay timer (R27). -/
  dt : Byte
  /-- The sound timer (R27). -/
  st : Byte
  /-- The framebuffer (R29). -/
  fb : Framebuffer
  /-- Memory (R30). -/
  mem : Memory
  /-- The key inputs sampled for the current STEP, bit k is key k, 1 = pressed (R36). -/
  keys : BitVec 16
  /-- The random byte of the current STEP (R37). -/
  rnd : Byte
  /-- The result the last operation returned (R41); nothing reads it (R28). -/
  result : OpResult
  /-- MODEL'S OWN: the operations the host issues next, first first (R40, 70_reset R297). -/
  script : List HostOp
  /-- MODEL'S OWN: how many operations the host has issued beyond its script (assumption 2). -/
  draws : Nat
  deriving DecidableEq, Repr

/-- The state after reset (10_state R34, 70_reset R280, R281): registers, stack, timers and framebuffer 0, PC 0x200,
memory at its reset contents (nothing listed). The ports and the host's own fields are the model's (assumption 3). -/
def State.reset : State where
  v := Vector.replicate 16 0
  i := 0
  pc := 0x200
  sp := 0
  stack := Vector.replicate 16 0
  dt := 0
  st := 0
  fb := Vector.replicate 32 0
  mem := []
  keys := 0
  rnd := 0
  result := .ok
  script := []
  draws := 0

/-- Why the machine would stop. EMPTY: no operation of the core stops it. Each of the spec's five faults ends one
operation with a state the rules give and a result to the host (60_exceptions R248, R251), and the core accepts any next
operation (R252, 40_step R120); so a fault of the spec is a next state with `result` set (assumption 4). Raised by
nothing; that is what the spec says, so it is neither safe nor unsafe. -/
inductive Fault where
  deriving DecidableEq, Repr

/-- Why a step has no meaning. -/
inductive Refusal where
  /-- The arm of `exec` for an instruction that has no meaning yet; safe (the machine stops where the hardware goes on).
  Every instruction has its meaning, so nothing raises it. -/
  | notModelled (mnemonic : String)
  deriving DecidableEq, Repr

/-- What a meaning answers. -/
abbrev Outcome := Host.Outcome State Fault Refusal

end Sys2Proof.Machine
end

