-- ==== Sys2Proof/Machine/Ops.lean ====
section
/-! DEFINITION. The named operations over memory, registers, stack and framebuffer, how an operation ends, and the host
operations RESET, LOAD and TICK. -/

namespace Sys2Proof.Machine

/-! ### Memory (spec/20_memory.md) -/

/-- What an address no cell lists reads as: its reset content (10_state R34). -/
def Memory.unlisted (a : Nat) : Byte := resetByte a

/-- `MEM[a]` (00_scope R13). Reading has no side effect (20_memory R59). -/
def Memory.read (m : Memory) (a : Nat) : Byte :=
  match m with
  | [] => Memory.unlisted a
  | c :: rest => if c.1 = a then c.2 else Memory.read rest a

/-- Take every cell of an address out. -/
def Memory.erase (m : Memory) (a : Nat) : Memory := m.filter (fun c => decide (c.1 ≠ a))

/-- Put a cell in its place by address. -/
def Memory.insert (m : Memory) (a : Nat) (b : Byte) : Memory :=
  match m with
  | [] => [(a, b)]
  | c :: rest => if a < c.1 then (a, b) :: c :: rest else c :: Memory.insert rest a b

/-- `MEM[a] <- b` (00_scope R13), keeping the canonical form. An address at or above `MEM_SIZE` does not exist (20_memory
R62) and takes no byte; every access of the core is range-checked before it comes here (assumption 25). -/
def Memory.write (m : Memory) (a : Nat) (b : Byte) : Memory :=
  if a < Config.memSize then
    if b = Memory.unlisted a then m.erase a else (m.erase a).insert a b
  else m

/-- The addresses rise strictly. -/
def Memory.rising : Memory → Bool
  | [] => true
  | c :: rest => rest.all (fun d => decide (c.1 < d.1)) && Memory.rising rest

/-- The canonical form: addresses rise strictly and exist, and no cell holds what its address reads as unlisted. -/
def Memory.wf (m : Memory) : Bool :=
  Memory.rising m && m.all (fun c => decide (c.1 < Config.memSize) && decide (c.2 ≠ Memory.unlisted c.1))

/-- The n bytes at a, a + 1, ..., lowest address first. -/
def Memory.readBytes (m : Memory) (a : Nat) : Nat → List Byte
  | 0 => []
  | n + 1 => m.read a :: Memory.readBytes m (a + 1) n

/-- Write bytes at a, a + 1, ..., lowest address first. -/
def Memory.writeBytes (m : Memory) (a : Nat) : List Byte → Memory
  | [] => m
  | b :: bs => Memory.writeBytes (m.write a b) (a + 1) bs

/-- The bounds check of a data access to n bytes at a, on unbounded integers; n = 0 checks nothing (20_memory R53). -/
def inRange (a n : Nat) : Bool := decide (n = 0 ∨ a + n - 1 ≤ 0xFFF)

/-- `MemRead(a, n)` (00_scope R13): the bytes, or none where the bounds check fails. -/
def State.memRead (s : State) (a n : Nat) : Option (List Byte) :=
  if inRange a n then some (s.mem.readBytes a n) else none

/-- `MemWrite(a, n, bs)` (00_scope R13): all bytes or none. -/
def State.memWrite (s : State) (a : Nat) (bs : List Byte) : Option State :=
  if inRange a bs.length then some { s with mem := s.mem.writeBytes a bs } else none

/-! ### Registers (spec/10_state.md R21 to R27) -/

/-- VF, the register that is also the flag (10_state R22). -/
abbrev vf : Nibble := 0xF

/-- `V[r]` (00_scope R13). -/
def State.getV (s : State) (r : Nibble) : Byte := s.v[r.toNat]'r.isLt

/-- `V[r] <- b` (00_scope R13). -/
def State.setV (s : State) (r : Nibble) (b : Byte) : State := { s with v := s.v.set r.toNat b r.isLt }

/-- A skip: `PC <- PC + 2` on top of the advance, when the condition holds (41_flow R131). -/
def State.skipIf (s : State) (taken : Bool) : State := if taken then { s with pc := s.pc + 2 } else s

/-- Push PC: `STACK[SP] <- PC ; SP <- SP + 1`, or none when all sixteen slots are in use (41_flow R134). -/
def State.push (s : State) : Option State :=
  if h : s.sp.val < 16 then
    some { s with stack := s.stack.set s.sp.val s.pc h, sp := ⟨s.sp.val + 1, Nat.succ_lt_succ h⟩ }
  else none

/-- Pop into PC: `SP <- SP - 1 ; PC <- STACK[SP]`, or none when the stack is empty (41_flow R130). -/
def State.pop (s : State) : Option State :=
  if h : 0 < s.sp.val then
    some { s with
      sp := ⟨s.sp.val - 1, Nat.lt_of_le_of_lt (Nat.sub_le _ _) s.sp.isLt⟩
      pc := s.stack[s.sp.val - 1]'(Nat.lt_of_lt_of_le (Nat.sub_lt h Nat.one_pos) (Nat.le_of_lt_succ s.sp.isLt)) }
  else none

/-! ### Framebuffer (spec/10_state.md R29, spec/44_display.md) -/

/-- `FB[y][x]`, true = on (10_state R29). Also the host's read accessor (R38). -/
def Framebuffer.pixel (f : Framebuffer) (y x : Nat) : Bool :=
  if h : y < 32 then (f[y]'h).getLsbD x else false

/-- `FB[y][x] <- FB[y][x] XOR 1` (44_display R201). -/
def Framebuffer.toggle (f : Framebuffer) (y x : Nat) : Framebuffer :=
  if h : y < 32 then f.set y ((f[y]'h) ^^^ (1#64 <<< x)) h else f

/-- Every pixel off (44_display R200). -/
def Framebuffer.clear : Framebuffer := Vector.replicate 32 0

/-! ### How an operation ends (spec/10_state.md R41, spec/60_exceptions.md R251, R252) -/

/-- `result Ok` (00_scope R13). -/
def State.done (s : State) : Outcome := .next { s with result := .ok }

/-- TAKING A FAULT, `raise F(info)`: the operation ends now and the host gets `Fault F`; nothing is saved, no mode, mask or
stack changes and control goes nowhere, so the state is the one the operation has reached (60_exceptions R251). There is no
return from a fault: the core accepts any next operation from this state (R252). -/
def State.raise (s : State) (f : CoreFault) : Outcome := .next { s with result := .fault f }

/-- `result AwaitingInput` (10_state R41, 60_exceptions R246). -/
def State.await (s : State) : Outcome := .next { s with result := .awaitingInput }

/-- The result code of 60_exceptions R240. -/
def OpResult.code : OpResult → Nat
  | .ok => 0
  | .awaitingInput => 1
  | .fault .romTooLarge => 2
  | .fault .addressOutOfRange => 3
  | .fault (.unknownOpcode _) => 4
  | .fault .stackOverflow => 5
  | .fault .stackUnderflow => 6

/-! ### The derived output (spec/10_state.md R39) -/

/-- `sound_active`: 1 exactly when ST is not 0 (10_state R39, 60_exceptions R264). -/
def State.soundActive (s : State) : Bool := decide (s.st ≠ 0)

/-! ### The host operations RESET, LOAD and TICK -/

/-- RESET (70_reset R280): every piece of the core's state at its reset value, result Ok. The key inputs and the host's
own fields are not the core's and stay (10_state R34). -/
def State.resetCore (s : State) : State :=
  { State.reset with keys := s.keys, rnd := s.rnd, script := s.script, draws := s.draws, result := .ok }

/-- LOAD (70_reset R283): a too long image is rejected with nothing changed; else a complete RESET, then the bytes copied
verbatim from 0x200 up. -/
def State.loadImage (s : State) (bytes : List Byte) : Outcome :=
  if imageFits bytes then
    State.done { s.resetCore with mem := s.resetCore.mem.writeBytes Config.progOrigin bytes }
  else s.raise .romTooLarge

/-- One timer toward zero, never below it (60_exceptions R262). -/
def decrement (b : Byte) : Byte := if b = 0 then 0 else b - 1

/-- TICK (60_exceptions R262): both timers, nothing else, result Ok. -/
def State.tick (s : State) : Outcome := State.done { s with dt := decrement s.dt, st := decrement s.st }

/-! ### Fetch and the host's next operation -/

/-- Phase 1 of a STEP: the big-endian word at PC, or none where `PC + 1 > 0xFFF` (40_step R111, 20_memory R51, R54). -/
def State.fetch (s : State) : Option Word :=
  if s.pc.toNat + 1 > 0xFFF then none
  else some (wordOfBytes (s.mem.read s.pc.toNat) (s.mem.read (s.pc.toNat + 1)))

/-- Phase 2 of a STEP: `PC <- PC + 2` (40_step R113). -/
def State.advance (s : State) : State := { s with pc := s.pc + 2 }

/-- The inputs are sampled once for the STEP (40_step R112). -/
def State.sample (s : State) (keys : BitVec 16) (rnd : Byte) : State := { s with keys := keys, rnd := rnd }

/-- The operation the host issues now: the first of its script, or, beyond the script, any operation whatever: a free value
(10_state R40; assumptions 1, 2). -/
def State.currentOp (s : State) : HostOp :=
  match s.script with
  | op :: _ => op
  | [] => Config.hostOp s.draws

/-- The host has issued its current operation. -/
def State.consumeOp (s : State) : State :=
  match s.script with
  | _ :: rest => { s with script := rest }
  | [] => { s with draws := s.draws + 1 }

end Sys2Proof.Machine
end

