-- ==== Sys2Proof/Machine/Operands.lean ====
section
/-! DEFINITION. The operand forms: how an instruction turns a register value or a field into an address, a key, a digit or
a coordinate. -/

namespace Sys2Proof.Machine

/-- The target of `JP V0,nnn`: V0 + nnn, not reduced to 12 bits (41_flow R138). -/
def offsetTarget (v0 : Byte) (nnn : Addr) : Word := v0.zext + nnn.zext

/-- The address of glyph b: `FONT_BASE + 5 * b` on the full 8-bit value (43_index R182; b above 15: assumption 13). -/
def glyphAddress (b : Byte) : Word := BitVec.ofNat 16 (Config.fontBase + Config.glyphBytes * b.toNat)

/-- The three decimal digits, hundreds first, one a byte (43_index R183). -/
def decimalDigits (b : Byte) : List Byte :=
  [BitVec.ofNat 8 (b.toNat / 100), BitVec.ofNat 8 (b.toNat / 10 % 10), BitVec.ofNat 8 (b.toNat % 10)]

/-- The registers V0 to Vx, lowest first (43_index R184: x is the register index, not the value Vx holds). -/
def State.firstRegs (s : State) (x : Nibble) : List Byte :=
  (List.range (x.toNat + 1)).map (fun k => s.getV (BitVec.ofNat 4 k))

/-- V0 to Vx taken from memory at a, the registers above Vx as they were (43_index R185). -/
def State.withFirstRegs (s : State) (x : Nibble) (bytes : List Byte) : State :=
  { s with v := Vector.ofFn (fun k : Fin 16 => if k.val ≤ x.toNat then bytes.getD k.val 0 else s.v[k.val]) }

/-- The key SKP and SKNP test: the low four bits of Vx (45_keys R227; above 15: assumption 12). -/
def keyIndex (b : Byte) : Nat := (b.extractLsb' 0 4).toNat

/-- `KEYS[k]` of this STEP's sample (10_state R36). -/
def State.keyDown (s : State) (k : Nat) : Bool := s.keys.getLsbD k

/-- The selected key of `LD Vx,K`: the least pressed one, none where no key is pressed (45_keys R223; which of several:
assumption 14). -/
def State.selectedKey (s : State) : Option Nat := (List.range 16).find? (fun k => s.keyDown k)

/-- `x0 = Vx mod 64` (44_display R203). -/
def originX (b : Byte) : Nat := b.toNat % Config.fbWidth

/-- `y0 = Vy mod 32` (44_display R203). -/
def originY (b : Byte) : Nat := b.toNat % Config.fbHeight

/-- Sprite column c of a row byte: bit 7 is column 0 (44_display R202; the bit order: assumption 9). -/
def spritePixel (row : Byte) (c : Nat) : Bool := row.getLsbD (7 - c)

end Sys2Proof.Machine
end

