-- ==== Sys2Proof/Machine/Flags.lean ====
section
/-! DEFINITION. The flag computations: what ADD, SUB, SUBN, SHR, SHL and DRW write to VF (spec/10_state.md R22,
spec/42_alu.md R163, spec/44_display.md R204). Each writes 0 or 1. -/

namespace Sys2Proof.Machine

/-- A flag as the byte VF holds. -/
def flagByte (b : Bool) : Byte := if b then 1 else 0

/-- ADD's flag: the true sum exceeds 255 (42_alu R156, R163). -/
def carryOut (a b : Byte) : Bool := decide (a.toNat + b.toNat > 255)

/-- The flag of SUB and SUBN: unsigned and strict (42_alu R157, R159, R163). -/
def strictlyGreater (a b : Byte) : Bool := decide (a.toNat > b.toNat)

/-- SHR's flag: the bit shifted out at the bottom (42_alu R158). -/
def shiftedOutLow (a : Byte) : Bool := a.getLsbD 0

/-- SHL's flag: the bit shifted out at the top (42_alu R160). -/
def shiftedOutHigh (a : Byte) : Bool := a.getLsbD 7

/-- Write the flag (10_state R22). -/
def State.setFlag (s : State) (b : Bool) : State := s.setV vf (flagByte b)

end Sys2Proof.Machine
end

