-- ==== Sys2Proof/Machine/Alu.lean ====
section
/-! DEFINITION. The meanings of the ALU and register instructions of spec/42_alu.md. The five flag-writing ones write VF
first and the result second, and the second statement reads the registers again (R164, assumption 10). -/

namespace Sys2Proof.Machine

/-- `LD Vx,kk` (42_alu R150). -/
def execLdKk (x : Nibble) (kk : Byte) (s : State) : Outcome := (s.setV x kk).done

/-- `ADD Vx,kk` (42_alu R151): wraps, no flag. -/
def execAddKk (x : Nibble) (kk : Byte) (s : State) : Outcome := (s.setV x (s.getV x + kk)).done

/-- `LD Vx,Vy` (42_alu R152). -/
def execLdVy (x y : Nibble) (s : State) : Outcome := (s.setV x (s.getV y)).done

/-- `OR Vx,Vy` (42_alu R153). -/
def execOrVy (x y : Nibble) (s : State) : Outcome := (s.setV x (s.getV x ||| s.getV y)).done

/-- `AND Vx,Vy` (42_alu R154). -/
def execAndVy (x y : Nibble) (s : State) : Outcome := (s.setV x (s.getV x &&& s.getV y)).done

/-- `XOR Vx,Vy` (42_alu R155). -/
def execXorVy (x y : Nibble) (s : State) : Outcome := (s.setV x (s.getV x ^^^ s.getV y)).done

/-- `ADD Vx,Vy` (42_alu R156): the sum is computed before any write. -/
def execAddVy (x y : Nibble) (s : State) : Outcome :=
  let sum := (s.getV x).toNat + (s.getV y).toNat
  ((s.setFlag (carryOut (s.getV x) (s.getV y))).setV x (BitVec.ofNat 8 sum)).done

/-- `SUB Vx,Vy` (42_alu R157). -/
def execSubVy (x y : Nibble) (s : State) : Outcome :=
  let t := s.setFlag (strictlyGreater (s.getV x) (s.getV y))
  (t.setV x (t.getV x - t.getV y)).done

/-- `SHR Vx` (42_alu R158): logical, Vy is not read. -/
def execShrVx (x : Nibble) (s : State) : Outcome :=
  let t := s.setFlag (shiftedOutLow (s.getV x))
  (t.setV x (t.getV x >>> 1)).done

/-- `SUBN Vx,Vy` (42_alu R159): the destination is Vx. -/
def execSubnVy (x y : Nibble) (s : State) : Outcome :=
  let t := s.setFlag (strictlyGreater (s.getV y) (s.getV x))
  (t.setV x (t.getV y - t.getV x)).done

/-- `SHL Vx` (42_alu R160): Vy is not read. -/
def execShlVx (x : Nibble) (s : State) : Outcome :=
  let t := s.setFlag (shiftedOutHigh (s.getV x))
  (t.setV x (t.getV x <<< 1)).done

/-- `RND Vx,kk` (42_alu R161): the random byte is this STEP's input. -/
def execRnd (x : Nibble) (kk : Byte) (s : State) : Outcome := (s.setV x (s.rnd &&& kk)).done

end Sys2Proof.Machine
end

