-- ==== Sys2Proof/Machine/Display.lean ====
section
/-! DEFINITION. The meanings of the display instructions of spec/44_display.md: the framebuffer update engine with its
collision detector. -/

namespace Sys2Proof.Machine

/-- The blit's progress: the framebuffer so far and whether a collision has occurred (`FB` and `hit` of 44_display R201). -/
structure Blit where
  fb : Framebuffer
  hit : Bool
  deriving DecidableEq, Repr

/-- One sprite pixel that is 1 and not clipped: note a collision if the target is on, then toggle it (44_display R201). -/
def plot (b : Blit) (py px : Nat) : Blit := ⟨b.fb.toggle py px, b.hit || b.fb.pixel py px⟩

/-- Columns c, c + 1, ... (`left` of them) of a sprite row at row py; a column beyond 63 is dropped (44_display R203). -/
def drawColumns (x0 py : Nat) (row : Byte) (b : Blit) (c : Nat) : Nat → Blit
  | 0 => b
  | left + 1 =>
    drawColumns x0 py row
      (if x0 + c ≤ 63 ∧ spritePixel row c = true then plot b py (x0 + c) else b) (c + 1) left

/-- The sprite's rows from row py down; a row beyond 31 is dropped (44_display R203). -/
def drawRows (x0 py : Nat) (b : Blit) : List Byte → Blit
  | [] => b
  | row :: rows => drawRows x0 (py + 1) (if py ≤ 31 then drawColumns x0 py row b 0 8 else b) rows

/-- `CLS` (44_display R200). -/
def execCls (s : State) : Outcome := State.done { s with fb := Framebuffer.clear }

/-- `DRW Vx,Vy,n` (44_display R201): the whole sprite is read first, Vx and Vy are read before VF is written, VF is written
once, last. -/
def execDrw (x y n : Nibble) (s : State) : Outcome :=
  match s.memRead s.i.toNat n.toNat with
  | none => s.raise .addressOutOfRange
  | some rows =>
    let b := drawRows (originX (s.getV x)) (originY (s.getV y)) ⟨s.fb, false⟩ rows
    (State.setFlag { s with fb := b.fb } b.hit).done

end Sys2Proof.Machine
end

