-- ==== Sys2Proof/Machine/Flow.lean ====
section
/-! DEFINITION. The meanings of the control transfers of spec/41_flow.md. PC has already been advanced (spec/40_step_cycle.md
R113). -/

namespace Sys2Proof.Machine

/-- `RET` (41_flow R130). -/
def execRet (s : State) : Outcome :=
  match s.pop with
  | none => s.raise .stackUnderflow
  | some t => t.done

/-- `JP nnn` (41_flow R132). -/
def execJp (nnn : Addr) (s : State) : Outcome := State.done { s with pc := nnn.zext }

/-- `CALL nnn` (41_flow R134). -/
def execCall (nnn : Addr) (s : State) : Outcome :=
  match s.push with
  | none => s.raise .stackOverflow
  | some t => State.done { t with pc := nnn.zext }

/-- `SE Vx,kk` (41_flow R135). -/
def execSeKk (x : Nibble) (kk : Byte) (s : State) : Outcome := (s.skipIf (decide (s.getV x = kk))).done

/-- `SNE Vx,kk` (41_flow R136). -/
def execSneKk (x : Nibble) (kk : Byte) (s : State) : Outcome := (s.skipIf (decide (s.getV x ≠ kk))).done

/-- `SE Vx,Vy` (41_flow R137). -/
def execSeVy (x y : Nibble) (s : State) : Outcome := (s.skipIf (decide (s.getV x = s.getV y))).done

/-- `SNE Vx,Vy` (41_flow R139). -/
def execSneVy (x y : Nibble) (s : State) : Outcome := (s.skipIf (decide (s.getV x ≠ s.getV y))).done

/-- `JP V0,nnn` (41_flow R138). -/
def execJpV0 (nnn : Addr) (s : State) : Outcome := State.done { s with pc := offsetTarget (s.getV 0) nnn }

end Sys2Proof.Machine
end

