-- ==== Sys2Proof/Machine/Index.lean ====
section
/-! DEFINITION. The meanings of the index register and memory instructions of spec/43_index_memory.md. The one addressing
mode is I + k, and no memory instruction changes I (R186). -/

namespace Sys2Proof.Machine

/-- `LD I,nnn` (43_index R180). -/
def execLdI (nnn : Addr) (s : State) : Outcome := State.done { s with i := nnn.zext }

/-- `ADD I,Vx` (43_index R181): modulo 65536 (assumption 15), no flag. -/
def execAddIVx (x : Nibble) (s : State) : Outcome := State.done { s with i := s.i + (s.getV x).zext }

/-- `LD F,Vx` (43_index R182). -/
def execLdFVx (x : Nibble) (s : State) : Outcome := State.done { s with i := glyphAddress (s.getV x) }

/-- `LD B,Vx` (43_index R183). -/
def execLdBVx (x : Nibble) (s : State) : Outcome :=
  match s.memWrite s.i.toNat (decimalDigits (s.getV x)) with
  | none => s.raise .addressOutOfRange
  | some t => t.done

/-- `LD [I],Vx` (43_index R184). -/
def execStoreRegs (x : Nibble) (s : State) : Outcome :=
  match s.memWrite s.i.toNat (s.firstRegs x) with
  | none => s.raise .addressOutOfRange
  | some t => t.done

/-- `LD Vx,[I]` (43_index R185). -/
def execLoadRegs (x : Nibble) (s : State) : Outcome :=
  match s.memRead s.i.toNat (x.toNat + 1) with
  | none => s.raise .addressOutOfRange
  | some bytes => (s.withFirstRegs x bytes).done

end Sys2Proof.Machine
end

