-- ==== Sys2Proof/Machine/KeysTimers.lean ====
section
/-! DEFINITION. The meanings of the key and timer instructions of spec/45_keys_timers.md. -/

namespace Sys2Proof.Machine

/-- `SKP Vx` (45_keys R220). -/
def execSkp (x : Nibble) (s : State) : Outcome := (s.skipIf (s.keyDown (keyIndex (s.getV x)))).done

/-- `SKNP Vx` (45_keys R221). -/
def execSknp (x : Nibble) (s : State) : Outcome := (s.skipIf (!s.keyDown (keyIndex (s.getV x)))).done

/-- `LD Vx,DT` (45_keys R222). -/
def execLdVxDt (x : Nibble) (s : State) : Outcome := (s.setV x s.dt).done

/-- `LD Vx,K` (45_keys R224): with no key pressed PC goes back to this instruction and the host gets AwaitingInput. -/
def execLdVxK (x : Nibble) (s : State) : Outcome :=
  match s.selectedKey with
  | none => State.await { s with pc := s.pc - 2 }
  | some k => (s.setV x (BitVec.ofNat 8 k)).done

/-- `LD DT,Vx` (45_keys R225). -/
def execLdDtVx (x : Nibble) (s : State) : Outcome := State.done { s with dt := s.getV x }

/-- `LD ST,Vx` (45_keys R226). -/
def execLdStVx (x : Nibble) (s : State) : Outcome := State.done { s with st := s.getV x }

end Sys2Proof.Machine
end

