-- ==== Sys2Proof/Machine/Cycle.lean ====
section
/-! DEFINITION. The STEP operation of spec/40_step_cycle.md R110, and what each host operation does (spec/10_state.md R40). -/

namespace Sys2Proof.Machine

/-- STEP after the inputs are sampled (40_step R110): fetch, advance, decode, execute. A failed fetch changes nothing
(R111); an unknown word leaves PC advanced (R116). -/
def cycle (s : State) : Outcome :=
  match s.fetch with
  | none => s.raise .addressOutOfRange
  | some op =>
    match decodeWord op with
    | none => s.advance.raise (.unknownOpcode op)
    | some i => exec i s.advance

/-- One host operation, an atomic transition (10_state R40). -/
def perform (op : HostOp) (s : State) : Outcome :=
  match op with
  | .reset => s.resetCore.done
  | .load bytes => s.loadImage bytes
  | .step keys rnd => cycle (s.sample keys rnd)
  | .tick => s.tick

/-- Where a program word is placed for the next STEP to fetch it: PC, or 0x200 where PC is too high to fetch at. -/
def State.fetchPlace (s : State) : Word := if s.pc.toNat + 1 > 0xFFF then BitVec.ofNat 16 Config.progOrigin else s.pc

/-- The bytes of a table word (bits above `nbits` 0), as memory holds them (20_memory R51). -/
def tableWordBytes (nbits w : Nat) : List Byte :=
  [highByte (BitVec.ofNat 16 (w % 2 ^ nbits)), lowByte (BitVec.ofNat 16 (w % 2 ^ nbits))]

/-- The host's next operation is a STEP with the inputs the ports hold, and the word stands where it fetches. -/
def State.placeWord (s : State) (nbits w : Nat) : State :=
  { s with
    pc := s.fetchPlace
    mem := s.mem.writeBytes s.fetchPlace.toNat (tableWordBytes nbits w)
    script := .step s.keys s.rnd :: s.script }

end Sys2Proof.Machine
end

