-- ==== Sys2Proof/Machine/Step.lean ====
section
/-! DEFINITION. One step of the machine: the host's next operation (spec/10_state.md R40, assumption 1). -/

namespace Sys2Proof.Machine

/-- The host's current operation, performed. -/
def step (s : State) : Host.Outcome State Fault Refusal := perform s.currentOp s.consumeOp

/-- The state with a table word as the instruction the very next step runs (assumption 21): the word's two bytes stand
where the fetch reads, and the host's next operation is a STEP. -/
def State.withFetchWord (s : State) (nbits w : Nat) : State := s.placeWord nbits w

end Sys2Proof.Machine
end

