-- ==== Sys2Proof/Safety.lean ====
section
/-! DEFINITION. What claims about runs are stated in: the invariant of spec/10_state.md R35, a safe run, and the relations
that say two states differ only in what no instruction may observe. -/

namespace Sys2Proof.Machine

/-- PC after an operation never exceeds 0x10FE (10_state R25). -/
def State.pcBounded (s : State) : Prop := s.pc.toNat ≤ 0x10FE

/-- Every valid stack entry is at most 0x1000 (10_state R35). -/
def State.stackBounded (s : State) : Prop := ∀ (k : Nat) (h : k < 16), k < s.sp.val → (s.stack[k]'h).toNat ≤ 0x1000

/-- The invariant of 10_state R35, with the canonical form of memory. The widths and 0 ≤ SP ≤ 16 are in the types. -/
structure State.Inv (s : State) : Prop where
  pc : s.pcBounded
  stack : s.stackBounded
  mem : s.mem.wf = true

/-- The last operation reported no fault (60_exceptions R246: AwaitingInput is none). A claim of the form "the program runs
without fault" takes a fault as the end of the run (R249). -/
def State.faultFree (s : State) : Bool :=
  match s.result with
  | .fault _ => false
  | _ => true

/-- The parts of the state a frame speaks of; `host` is the input ports and the host's own fields. `result` is no part: every
operation writes it (10_state R41). -/
inductive Part where
  | regs | index | pc | stack | delay | sound | screen | mem | host
  deriving DecidableEq, Repr

/-- The part of s is unchanged in t: every register, every pixel and every byte of memory reads as before. -/
def State.kept (s t : State) : Part → Prop
  | .regs => ∀ r, t.getV r = s.getV r
  | .index => t.i = s.i
  | .pc => t.pc = s.pc
  | .stack => t.sp = s.sp ∧ t.stack = s.stack
  | .delay => t.dt = s.dt
  | .sound => t.st = s.st
  | .screen => ∀ y x, t.fb.pixel y x = s.fb.pixel y x
  | .mem => ∀ a, t.mem.read a = s.mem.read a
  | .host => t.keys = s.keys ∧ t.rnd = s.rnd ∧ t.script = s.script ∧ t.draws = s.draws

/-- Every part but the listed ones is unchanged from s to t. -/
def State.keepsAllBut (s : State) (changed : List Part) (t : State) : Prop := ∀ p, p ∉ changed → s.kept t p

/-- The registers once VF has been written as a flag and nothing else has (42_alu R164: the flag is the first of the two
statements). -/
def State.flagged (s : State) (flag : Bool) (r : Nibble) : Byte := if r = 0xF then (if flag then 1 else 0) else s.getV r

/-- `DRW Vx,Vy,n` puts a toggle on pixel (py, px): some row r and column c of the sprite at I is 1 there, the origin wrapped
into the grid and the pixel not (44_display R202, R203). -/
def State.spriteOn (s : State) (x y n : Nibble) (py px : Nat) : Prop :=
  ∃ r c, r < n.toNat ∧ c < 8 ∧ (s.getV y).toNat % 32 + r = py ∧ (s.getV x).toNat % 64 + c = px ∧
    (s.mem.read (s.i.toNat + r)).getLsbD (7 - c) = true

/-- The two states agree on everything but stack slots at SP and above, which no rule reads (10_state R26). -/
def State.sameButDeadSlots (s t : State) : Prop :=
  { s with stack := t.stack } = t ∧ ∀ (k : Nat) (h : k < 16), k < s.sp.val → s.stack[k]'h = t.stack[k]'h

/-- What a byte of memory reads as once `LD [I],Vx` has stored V0 to Vx at I to I + x (43_index R184). -/
def State.byteAfterStore (s : State) (x : Nibble) (a : Nat) : Byte :=
  if s.i.toNat ≤ a ∧ a ≤ s.i.toNat + x.toNat then s.getV (BitVec.ofNat 4 (a - s.i.toNat)) else s.mem.read a

/-- What a byte of memory is once `LD B,Vx` has stored the three digits of Vx at I, I + 1 and I + 2 (43_index R183). -/
def State.byteAfterDigits (s : State) (x : Nibble) (a : Nat) : Nat :=
  if a = s.i.toNat then (s.getV x).toNat / 100
  else if a = s.i.toNat + 1 then (s.getV x).toNat / 10 % 10
  else if a = s.i.toNat + 2 then (s.getV x).toNat % 10
  else (s.mem.read a).toNat

/-- A schedule of host operations performed one after the other, each from the state the one before it left (10_state R40,
40_step R120). -/
def performAll : List HostOp → State → Outcome
  | [], s => .next s
  | op :: ops, s =>
    match perform op s with
    | .next t => performAll ops t
    | .fault r => .fault r
    | .refused r => .refused r

end Sys2Proof.Machine
end

