-- ==== Sys2Proof/Certificates/Slice0/Obligations.lean ====
section
/-! DEFINITION. The statements for the provers, from the numbered rules of spec/. In a statement about `exec`, the state s is
the one after phases 1 and 2 of a STEP: its PC is a + 2 for an instruction fetched at a (spec/40_step_cycle.md R113). A
statement of an instruction's effect says nothing of its encoding; the encoding statements do. -/

open Sys2Proof Sys2Proof.Machine

/-! ### Encoding (spec/30_encoding.md; every number is the spec's general knowledge G1, assumption 6) -/

/-- Words written out from the Encoding column of R86 decode to their instructions; some unknown words do not (R91). -/
def Obligations.WrittenOutWordsDecode : Prop :=
  decodeWord 0b0000000011100000 = some .cls ∧
  decodeWord 0b0000000011101110 = some .ret ∧
  decodeWord 0b0001101010111100 = some (.jp 0xABC) ∧
  decodeWord 0b0011101000101111 = some (.seKk 0xA 0x2F) ∧
  decodeWord 0b1000000100100111 = some (.subnVy 1 2) ∧
  decodeWord 0b1010000100100011 = some (.ldI 0x123) ∧
  decodeWord 0b1101000100100101 = some (.drw 1 2 5) ∧
  decodeWord 0b1110000110011110 = some (.skp 1) ∧
  decodeWord 0b1111000101100101 = some (.loadRegs 1) ∧
  decodeWord 0x0000 = none ∧ decodeWord 0x8128 = none ∧ decodeWord 0xE19F = none ∧ decodeWord 0xFFFF = none

/-- R86, R81: decoding the bytes of any instruction, with any bytes after them, gives it back and leaves the rest. -/
def Obligations.DecodeOfEncodeIsTheInstruction : Prop :=
  ∀ (i : Instr) (rest : List Byte), decode (encodeBytes i ++ rest) = .instr i rest

/-- R85, R86: a canonical word that decodes is the encoding of what it decodes to. -/
def Obligations.EncodeOfDecodeIsTheCanonicalWord : Prop :=
  ∀ (op : Word) (i : Instr), decodeWord op = some i → canonicalWord op = true → encode i = op

/-- R86, R89: a word selects a row of the table exactly when `op AND mask = match`, and no word selects two rows. -/
def Obligations.DecodeAgreesWithMaskAndMatch : Prop :=
  (∀ (op : Word) (i : Instr), decodeWord op = some i → op &&& (maskAndMatch i).1 = (maskAndMatch i).2) ∧
  (∀ (op : Word) (i : Instr), op &&& (maskAndMatch i).1 = (maskAndMatch i).2 →
    ∃ j, decodeWord op = some j ∧ maskAndMatch j = maskAndMatch i)

/-- R91: the unknown words, exhaustively by family. -/
def Obligations.UnknownWordsAreExactlyTheListed : Prop :=
  ∀ op : Word, decodeWord op = none ↔
    (op.toNat / 4096 = 0 ∧ op.toNat % 256 ∉ [0xE0, 0xEE]) ∨
    (op.toNat / 4096 = 8 ∧ op.toNat % 16 ∈ [0x8, 0x9, 0xA, 0xB, 0xC, 0xD, 0xF]) ∨
    (op.toNat / 4096 = 14 ∧ op.toNat % 256 ∉ [0x9E, 0xA1]) ∨
    (op.toNat / 4096 = 15 ∧ op.toNat % 256 ∉ [0x07, 0x0A, 0x15, 0x18, 0x1E, 0x29, 0x33, 0x55, 0x65])

/-! ### The STEP operation (spec/40_step_cycle.md) -/

/-- R110: where the host's operation is a STEP and the two bytes at PC exist and decode to an instruction, step is exec of it
on the state with the inputs sampled and PC advanced by 2. `consumeOp` takes the operation off the host's script (the model's
own field, assumption 1). -/
def Obligations.StepRunsTheDecodedInstruction : Prop :=
  ∀ (s : State) (k : BitVec 16) (b : Byte) (i : Instr),
    s.currentOp = .step k b → s.pc.toNat + 1 ≤ 0xFFF →
    decode [s.mem.read s.pc.toNat, s.mem.read (s.pc.toNat + 1)] = .instr i [] →
    step s = exec i { s.consumeOp with keys := k, rnd := b, pc := s.pc + 2 }

/-- R51: the fetched word is `MEM[PC] * 256 + MEM[PC+1]`. -/
def Obligations.FetchIsBigEndian : Prop :=
  ∀ s : State, s.pc.toNat + 1 ≤ 0xFFF →
    ∃ op, s.fetch = some op ∧ op.toNat = (s.mem.read s.pc.toNat).toNat * 256 + (s.mem.read (s.pc.toNat + 1)).toNat

/-- R54: a STEP at PC = 0xFFF or above reports AddressOutOfRange and changes nothing, PC included; PC = 0xFFE and below
fetch. -/
def Obligations.FetchBeyondMemoryFaultsAndChangesNothing : Prop :=
  (∀ (s : State) (k : BitVec 16) (b : Byte), s.currentOp = .step k b → 0xFFF ≤ s.pc.toNat →
    step s = .next { s.consumeOp with keys := k, rnd := b, result := .fault .addressOutOfRange }) ∧
  (∀ s : State, s.pc.toNat ≤ 0xFFE → s.fetch ≠ none)

/-- R116: an unknown word is reported whole, PC has advanced by 2 and nothing else has changed. -/
def Obligations.UnknownWordIsReportedWithPcAdvanced : Prop :=
  ∀ (s : State) (k : BitVec 16) (b : Byte) (op : Word),
    s.currentOp = .step k b → s.fetch = some op → decodeWord op = none →
    step s = .next { s.consumeOp with keys := k, rnd := b, pc := s.pc + 2, result := .fault (.unknownOpcode op) }

/-- R120, R252: the core never stops: from every state a step answers a next state. -/
def Obligations.EveryStepAnswersANextState : Prop := ∀ s : State, ∃ t, step s = .next t

/-- R40, R297: every schedule of the four operations can happen, from every state: a finite one is some script, and the
machine then performs exactly its operations in its order; beyond the script the next operation is a free value, so none of
the four is fixed there (the script and the free value are the model's, assumptions 1 and 2). -/
def Obligations.EveryScheduleOfHostOperationsIsAdmitted : Prop :=
  (∀ (ops : List HostOp) (s : State), ∃ t, performAll ops s = .next t ∧
    ∀ rest, Host.Core.run Sys2Proof.core ops.length ({ s with script := ops ++ rest } : State) =
      .next ({ t with script := rest } : State)) ∧
  (∀ s : State, s.script = [] → step s = perform (Config.hostOp s.draws) { s with draws := s.draws + 1 })

/-! ### Control transfer (spec/41_flow.md) -/

/-- R132. -/
def Obligations.JumpSetsPc : Prop :=
  ∀ (nnn : Addr) (s : State), ∃ t, exec (.jp nnn) s = .next t ∧
    t.pc.toNat = nnn.toNat ∧ t.result = .ok ∧ s.keepsAllBut [.pc] t

/-- R138: the sum is not reduced to 12 bits. -/
def Obligations.JumpWithOffsetAddsV0 : Prop :=
  ∀ (nnn : Addr) (s : State), ∃ t, exec (.jpV0 nnn) s = .next t ∧
    t.pc.toNat = (s.getV 0).toNat + nnn.toNat ∧ t.result = .ok ∧ s.keepsAllBut [.pc] t

/-- R134: CALL pushes the advanced PC and jumps. -/
def Obligations.CallPushesTheReturnAddress : Prop :=
  ∀ (nnn : Addr) (s : State), s.sp.val < 16 → ∃ t, exec (.call nnn) s = .next t ∧
    t.pc.toNat = nnn.toNat ∧ t.sp.val = s.sp.val + 1 ∧
    (∀ (k : Nat) (h : k < 16), t.stack[k]'h = if k = s.sp.val then s.pc else s.stack[k]'h) ∧
    t.result = .ok ∧ s.keepsAllBut [.pc, .stack] t

/-- R244: CALL with sixteen entries changes nothing; PC stays at a + 2. -/
def Obligations.CallOnAFullStackFaults : Prop :=
  ∀ (nnn : Addr) (s : State), s.sp.val = 16 →
    exec (.call nnn) s = .next { s with result := .fault .stackOverflow }

/-- R130: RET pops into PC; the slots keep their contents. -/
def Obligations.ReturnPopsIntoPc : Prop :=
  ∀ s : State, 0 < s.sp.val → ∃ t, exec .ret s = .next t ∧
    t.sp.val = s.sp.val - 1 ∧ (∀ h : s.sp.val - 1 < 16, t.pc = s.stack[s.sp.val - 1]'h) ∧ t.stack = s.stack ∧
    t.result = .ok ∧ s.keepsAllBut [.pc, .stack] t

/-- R245: RET with an empty stack changes nothing; PC stays at a + 2. -/
def Obligations.ReturnOnAnEmptyStackFaults : Prop :=
  ∀ s : State, s.sp.val = 0 → exec .ret s = .next { s with result := .fault .stackUnderflow }

/-- R133: after CALL and its RET, PC is the address after the CALL and the stack holds what it held. -/
def Obligations.ReturnUndoesCall : Prop :=
  ∀ (nnn : Addr) (s : State), s.sp.val < 16 → ∃ t u, exec (.call nnn) s = .next t ∧ exec .ret t = .next u ∧
    u.pc = s.pc ∧ u.sp = s.sp ∧ (∀ (k : Nat) (h : k < 16), k < s.sp.val → u.stack[k]'h = s.stack[k]'h) ∧
    s.keepsAllBut [.stack] u

/-- R135, R136, R137, R139: the four compare-and-skip instructions. -/
def Obligations.CompareAndSkip : Prop :=
  (∀ (x : Nibble) (kk : Byte) (s : State), ∃ t, exec (.seKk x kk) s = .next t ∧
    t.pc = (if (s.getV x).toNat = kk.toNat then s.pc + 2 else s.pc) ∧ t.result = .ok ∧ s.keepsAllBut [.pc] t) ∧
  (∀ (x : Nibble) (kk : Byte) (s : State), ∃ t, exec (.sneKk x kk) s = .next t ∧
    t.pc = (if (s.getV x).toNat = kk.toNat then s.pc else s.pc + 2) ∧ t.result = .ok ∧ s.keepsAllBut [.pc] t) ∧
  (∀ (x y : Nibble) (s : State), ∃ t, exec (.seVy x y) s = .next t ∧
    t.pc = (if (s.getV x).toNat = (s.getV y).toNat then s.pc + 2 else s.pc) ∧ t.result = .ok ∧ s.keepsAllBut [.pc] t) ∧
  (∀ (x y : Nibble) (s : State), ∃ t, exec (.sneVy x y) s = .next t ∧
    t.pc = (if (s.getV x).toNat = (s.getV y).toNat then s.pc else s.pc + 2) ∧ t.result = .ok ∧ s.keepsAllBut [.pc] t)

/-! ### ALU and registers (spec/42_alu.md) -/

/-- R150, R152: the destination gets the immediate or the other register; no other register and no flag changes. -/
def Obligations.LoadImmediateAndCopy : Prop :=
  (∀ (x : Nibble) (kk : Byte) (s : State), ∃ t, exec (.ldKk x kk) s = .next t ∧
    (∀ r, t.getV r = if r = x then kk else s.getV r) ∧ t.result = .ok ∧ s.keepsAllBut [.regs] t) ∧
  (∀ (x y : Nibble) (s : State), ∃ t, exec (.ldVy x y) s = .next t ∧
    (∀ r, t.getV r = if r = x then s.getV y else s.getV r) ∧ t.result = .ok ∧ s.keepsAllBut [.regs] t)

/-- R151: modulo 256, and VF is the destination only when x = 15. -/
def Obligations.AddImmediateWrapsWithoutFlag : Prop :=
  ∀ (x : Nibble) (kk : Byte) (s : State), ∃ t, exec (.addKk x kk) s = .next t ∧
    (∀ r, (t.getV r).toNat = if r = x then ((s.getV x).toNat + kk.toNat) % 256 else (s.getV r).toNat) ∧
    t.result = .ok ∧ s.keepsAllBut [.regs] t

/-- R153, R154, R155: bit by bit; VF is not written unless x = 15. -/
def Obligations.BitwiseOperations : Prop :=
  (∀ (x y : Nibble) (s : State), ∃ t, exec (.orVy x y) s = .next t ∧
    (∀ k, (t.getV x).getLsbD k = ((s.getV x).getLsbD k || (s.getV y).getLsbD k)) ∧
    (∀ r, r ≠ x → t.getV r = s.getV r) ∧ t.result = .ok ∧ s.keepsAllBut [.regs] t) ∧
  (∀ (x y : Nibble) (s : State), ∃ t, exec (.andVy x y) s = .next t ∧
    (∀ k, (t.getV x).getLsbD k = ((s.getV x).getLsbD k && (s.getV y).getLsbD k)) ∧
    (∀ r, r ≠ x → t.getV r = s.getV r) ∧ t.result = .ok ∧ s.keepsAllBut [.regs] t) ∧
  (∀ (x y : Nibble) (s : State), ∃ t, exec (.xorVy x y) s = .next t ∧
    (∀ k, (t.getV x).getLsbD k = decide ((s.getV x).getLsbD k ≠ (s.getV y).getLsbD k)) ∧
    (∀ r, r ≠ x → t.getV r = s.getV r) ∧ t.result = .ok ∧ s.keepsAllBut [.regs] t)

/-- R156 to R160 for every x and y, VF included, in the statement order of R164 (the spec's decision D3, assumption 10): VF
is written first, then Vx from the registers as they then stand (ADD's sum is computed before any write). -/
def Obligations.FlagWritersRunInStatementOrder : Prop :=
  (∀ (x y : Nibble) (s : State), ∃ t, exec (.addVy x y) s = .next t ∧ t.result = .ok ∧ s.keepsAllBut [.regs] t ∧
    ∀ r, (t.getV r).toNat = if r = x then ((s.getV x).toNat + (s.getV y).toNat) % 256
      else (s.flagged (decide (255 < (s.getV x).toNat + (s.getV y).toNat)) r).toNat) ∧
  (∀ (x y : Nibble) (s : State), ∃ t, exec (.subVy x y) s = .next t ∧ t.result = .ok ∧ s.keepsAllBut [.regs] t ∧
    ∀ r, (t.getV r).toNat = if r = x
      then ((s.flagged (decide ((s.getV y).toNat < (s.getV x).toNat)) x).toNat + 256
        - (s.flagged (decide ((s.getV y).toNat < (s.getV x).toNat)) y).toNat) % 256
      else (s.flagged (decide ((s.getV y).toNat < (s.getV x).toNat)) r).toNat) ∧
  (∀ (x : Nibble) (s : State), ∃ t, exec (.shrVx x) s = .next t ∧ t.result = .ok ∧ s.keepsAllBut [.regs] t ∧
    ∀ r, (t.getV r).toNat = if r = x then (s.flagged (decide ((s.getV x).toNat % 2 = 1)) x).toNat / 2
      else (s.flagged (decide ((s.getV x).toNat % 2 = 1)) r).toNat) ∧
  (∀ (x y : Nibble) (s : State), ∃ t, exec (.subnVy x y) s = .next t ∧ t.result = .ok ∧ s.keepsAllBut [.regs] t ∧
    ∀ r, (t.getV r).toNat = if r = x
      then ((s.flagged (decide ((s.getV x).toNat < (s.getV y).toNat)) y).toNat + 256
        - (s.flagged (decide ((s.getV x).toNat < (s.getV y).toNat)) x).toNat) % 256
      else (s.flagged (decide ((s.getV x).toNat < (s.getV y).toNat)) r).toNat) ∧
  (∀ (x : Nibble) (s : State), ∃ t, exec (.shlVx x) s = .next t ∧ t.result = .ok ∧ s.keepsAllBut [.regs] t ∧
    ∀ r, (t.getV r).toNat = if r = x then (s.flagged (decide (128 ≤ (s.getV x).toNat)) x).toNat * 2 % 256
      else (s.flagged (decide (128 ≤ (s.getV x).toNat)) r).toNat)

/-- R163: the flag convention, where no operand is VF (VF as an operand is FlagWritersRunInStatementOrder's). -/
def Obligations.FlagConvention : Prop :=
  ∀ (x y : Nibble) (s : State), x ≠ 0xF → y ≠ 0xF →
    (∃ t, exec (.addVy x y) s = .next t ∧
      (t.getV 0xF).toNat = if 255 < (s.getV x).toNat + (s.getV y).toNat then 1 else 0) ∧
    (∃ t, exec (.subVy x y) s = .next t ∧
      (t.getV 0xF).toNat = (if (s.getV y).toNat < (s.getV x).toNat then 1 else 0) ∧
      ((s.getV x).toNat = (s.getV y).toNat → (t.getV 0xF).toNat = 0 ∧ (t.getV x).toNat = 0)) ∧
    (∃ t, exec (.subnVy x y) s = .next t ∧
      (t.getV 0xF).toNat = (if (s.getV x).toNat < (s.getV y).toNat then 1 else 0) ∧
      ((s.getV x).toNat = (s.getV y).toNat → (t.getV 0xF).toNat = 0 ∧ (t.getV x).toNat = 0)) ∧
    (∃ t, exec (.shrVx x) s = .next t ∧ (t.getV 0xF).toNat = (s.getV x).toNat % 2 ∧
      (t.getV x).toNat = (s.getV x).toNat / 2) ∧
    (∃ t, exec (.shlVx x) s = .next t ∧ (t.getV 0xF).toNat = (s.getV x).toNat / 128 ∧
      (t.getV x).toNat = (s.getV x).toNat * 2 % 256) ∧
    (∀ kk, ∃ t, exec (.addKk x kk) s = .next t ∧ t.getV 0xF = s.getV 0xF) ∧
    (∃ t, exec (.orVy x y) s = .next t ∧ t.getV 0xF = s.getV 0xF) ∧
    (∃ t, exec (.andVy x y) s = .next t ∧ t.getV 0xF = s.getV 0xF) ∧
    (∃ t, exec (.xorVy x y) s = .next t ∧ t.getV 0xF = s.getV 0xF)

/-- R164's table: VF named as an operand (the spec's decision D3, assumption 10). -/
def Obligations.VfAsOperandTable : Prop :=
  ∀ (x y : Nibble) (s : State), x ≠ 0xF → y ≠ 0xF →
    (∃ t, exec (.addVy 0xF y) s = .next t ∧ t.getV 0xF = s.getV 0xF + s.getV y) ∧
    (∃ t, exec (.addVy x 0xF) s = .next t ∧ t.getV x = s.getV x + s.getV 0xF ∧
      (t.getV 0xF).toNat = if 255 < (s.getV x).toNat + (s.getV 0xF).toNat then 1 else 0) ∧
    (∃ t, exec (.addVy 0xF 0xF) s = .next t ∧ (t.getV 0xF).toNat = 2 * (s.getV 0xF).toNat % 256) ∧
    (∃ t, exec (.subVy 0xF y) s = .next t ∧
      t.getV 0xF = (if (s.getV y).toNat < (s.getV 0xF).toNat then 1 else 0) - s.getV y) ∧
    (∃ t, exec (.subVy x 0xF) s = .next t ∧
      t.getV 0xF = (if (s.getV 0xF).toNat < (s.getV x).toNat then 1 else 0) ∧ t.getV x = s.getV x - t.getV 0xF) ∧
    (∃ t, exec (.subVy 0xF 0xF) s = .next t ∧ t.getV 0xF = 0) ∧
    (∃ t, exec (.subnVy 0xF y) s = .next t ∧
      t.getV 0xF = s.getV y - (if (s.getV 0xF).toNat < (s.getV y).toNat then 1 else 0)) ∧
    (∃ t, exec (.subnVy x 0xF) s = .next t ∧
      t.getV 0xF = (if (s.getV x).toNat < (s.getV 0xF).toNat then 1 else 0) ∧ t.getV x = t.getV 0xF - s.getV x) ∧
    (∃ t, exec (.subnVy 0xF 0xF) s = .next t ∧ t.getV 0xF = 0) ∧
    (∃ t, exec (.shrVx 0xF) s = .next t ∧ t.getV 0xF = 0) ∧
    (∃ t, exec (.shlVx 0xF) s = .next t ∧ (t.getV 0xF).toNat = if 128 ≤ (s.getV 0xF).toNat then 2 else 0)

/-- R161: the random byte of the STEP, masked, for every random byte. -/
def Obligations.RandomByteIsMasked : Prop :=
  ∀ (x : Nibble) (kk : Byte) (s : State), ∃ t, exec (.rnd x kk) s = .next t ∧
    (∀ k, (t.getV x).getLsbD k = (s.rnd.getLsbD k && kk.getLsbD k)) ∧
    (∀ r, r ≠ x → t.getV r = s.getV r) ∧ t.result = .ok ∧ s.keepsAllBut [.regs] t

/-! ### Index register and memory (spec/43_index_memory.md) -/

/-- R180. -/
def Obligations.LoadIndexImmediate : Prop :=
  ∀ (nnn : Addr) (s : State), ∃ t, exec (.ldI nnn) s = .next t ∧
    t.i.toNat = nnn.toNat ∧ t.result = .ok ∧ s.keepsAllBut [.index] t

/-- R181: 16-bit, no masking, no flag; the wrap at 65536 is the spec's decision D9 (assumption 15). -/
def Obligations.AddRegisterToIndex : Prop :=
  ∀ (x : Nibble) (s : State), ∃ t, exec (.addIVx x) s = .next t ∧
    t.i.toNat = (s.i.toNat + (s.getV x).toNat) % 65536 ∧ t.result = .ok ∧ s.keepsAllBut [.index] t

/-- R182: the glyph address formula on the full 8-bit value; above 15 it is the spec's decision D7 (assumption 13). -/
def Obligations.GlyphAddressIsComputed : Prop :=
  ∀ (x : Nibble) (s : State), ∃ t, exec (.ldFVx x) s = .next t ∧
    t.i.toNat = 0x50 + 5 * (s.getV x).toNat ∧ t.result = .ok ∧ s.keepsAllBut [.index] t

/-- R183: three decimal digits, one a byte, at I, I + 1, I + 2; out of range nothing is written. -/
def Obligations.DecimalDigitsAreStored : Prop :=
  (∀ (x : Nibble) (s : State), s.i.toNat + 2 ≤ 0xFFF → ∃ t, exec (.ldBVx x) s = .next t ∧
    (t.mem.read s.i.toNat).toNat = (s.getV x).toNat / 100 ∧
    (t.mem.read (s.i.toNat + 1)).toNat = (s.getV x).toNat / 10 % 10 ∧
    (t.mem.read (s.i.toNat + 2)).toNat = (s.getV x).toNat % 10 ∧
    (∀ a, (a < s.i.toNat ∨ s.i.toNat + 2 < a) → t.mem.read a = s.mem.read a) ∧
    t.result = .ok ∧ s.keepsAllBut [.mem] t) ∧
  (∀ (x : Nibble) (s : State), 0xFFF < s.i.toNat + 2 →
    exec (.ldBVx x) s = .next { s with result := .fault .addressOutOfRange })

/-- R184: V0 to Vx at I to I + x, x the register index; out of range nothing is written. -/
def Obligations.RegisterBlockIsStored : Prop :=
  (∀ (x : Nibble) (s : State), s.i.toNat + x.toNat ≤ 0xFFF → ∃ t, exec (.storeRegs x) s = .next t ∧
    (∀ r : Nibble, r.toNat ≤ x.toNat → t.mem.read (s.i.toNat + r.toNat) = s.getV r) ∧
    (∀ a, (a < s.i.toNat ∨ s.i.toNat + x.toNat < a) → t.mem.read a = s.mem.read a) ∧
    t.result = .ok ∧ s.keepsAllBut [.mem] t) ∧
  (∀ (x : Nibble) (s : State), 0xFFF < s.i.toNat + x.toNat →
    exec (.storeRegs x) s = .next { s with result := .fault .addressOutOfRange })

/-- R185: V0 to Vx from I to I + x, the registers above Vx unchanged; out of range no register changes. -/
def Obligations.RegisterBlockIsLoaded : Prop :=
  (∀ (x : Nibble) (s : State), s.i.toNat + x.toNat ≤ 0xFFF → ∃ t, exec (.loadRegs x) s = .next t ∧
    (∀ r : Nibble, t.getV r = if r.toNat ≤ x.toNat then s.mem.read (s.i.toNat + r.toNat) else s.getV r) ∧
    t.result = .ok ∧ s.keepsAllBut [.regs] t) ∧
  (∀ (x : Nibble) (s : State), 0xFFF < s.i.toNat + x.toNat →
    exec (.loadRegs x) s = .next { s with result := .fault .addressOutOfRange })

/-- R187: a block store, any change of the registers, then the block load restores V0 to Vx. -/
def Obligations.BlockLoadRestoresBlockStore : Prop :=
  ∀ (x : Nibble) (s : State) (cleared : Vector Byte 16), s.i.toNat + x.toNat ≤ 0xFFF →
    ∃ t u, exec (.storeRegs x) s = .next t ∧ exec (.loadRegs x) { t with v := cleared } = .next u ∧
      ∀ r : Nibble, r.toNat ≤ x.toNat → u.getV r = s.getV r

/-- R66: after a store by `LD [I],Vx` or `LD B,Vx`, for every x, the very next fetch, at any address it can have, reads both
bytes as the store left them: new where the store wrote them, at either edge of the block too, and old elsewhere. -/
def Obligations.StoreIsSeenByTheNextFetch : Prop :=
  (∀ (x : Nibble) (s : State) (pc : Word), s.i.toNat + x.toNat ≤ 0xFFF → pc.toNat ≤ 0xFFE →
    ∃ t op, exec (.storeRegs x) s = .next t ∧ State.fetch { t with pc := pc } = some op ∧
      op.toNat = (s.byteAfterStore x pc.toNat).toNat * 256 + (s.byteAfterStore x (pc.toNat + 1)).toNat) ∧
  (∀ (x : Nibble) (s : State) (pc : Word), s.i.toNat + 2 ≤ 0xFFF → pc.toNat ≤ 0xFFE →
    ∃ t op, exec (.ldBVx x) s = .next t ∧ State.fetch { t with pc := pc } = some op ∧
      op.toNat = s.byteAfterDigits x pc.toNat * 256 + s.byteAfterDigits x (pc.toNat + 1))

/-! ### Display (spec/44_display.md) -/

/-- R200. -/
def Obligations.ClearScreenTurnsEveryPixelOff : Prop :=
  ∀ s : State, ∃ t, exec .cls s = .next t ∧
    (∀ y x, y < 32 → x < 64 → t.fb.pixel y x = false) ∧ t.result = .ok ∧ s.keepsAllBut [.screen] t

/-- R201, R202, R203: DRW flips exactly the pixels the sprite is on, origin wrapped, edges clipped; VF alone of the registers
may change. The bit order of a sprite byte is the spec's G3 (assumption 9), the n = 0 case its D15 (assumption 18). -/
def Obligations.DrawFlipsExactlyTheSpritePixels : Prop :=
  ∀ (x y n : Nibble) (s : State), (n.toNat = 0 ∨ s.i.toNat + n.toNat - 1 ≤ 0xFFF) →
    ∃ t, exec (.drw x y n) s = .next t ∧
      (∀ py px, py < 32 → px < 64 →
        (t.fb.pixel py px = true ↔ ¬(s.fb.pixel py px = true ↔ s.spriteOn x y n py px))) ∧
      (∀ r, r ≠ 0xF → t.getV r = s.getV r) ∧ t.result = .ok ∧ s.keepsAllBut [.regs, .screen] t

/-- R204, R201: VF is 1 when some pixel the sprite is on was on before, and 0 otherwise, Vx and Vy as they were before VF is
written. The bit order of a sprite byte is the spec's G3 (assumption 9); that n = 0 checks no range and clears VF, and that
the register reads come before the write of VF, is its D15 (assumption 18). -/
def Obligations.DrawReportsCollisionInVf : Prop :=
  ∀ (x y n : Nibble) (s : State), (n.toNat = 0 ∨ s.i.toNat + n.toNat - 1 ≤ 0xFFF) →
    ∃ t, exec (.drw x y n) s = .next t ∧
      ((∃ py px, py < 32 ∧ px < 64 ∧ s.spriteOn x y n py px ∧ s.fb.pixel py px = true) → t.getV 0xF = 1) ∧
      (¬(∃ py px, py < 32 ∧ px < 64 ∧ s.spriteOn x y n py px ∧ s.fb.pixel py px = true) → t.getV 0xF = 0)

/-- R201, R242: a sprite of one row or more that leaves memory changes nothing, VF and clipped rows included (the check of
clipped rows is the spec's decision D15, assumption 18). -/
def Obligations.DrawOutOfRangeFaults : Prop :=
  ∀ (x y n : Nibble) (s : State), 1 ≤ n.toNat → 0xFFF < s.i.toNat + n.toNat - 1 →
    exec (.drw x y n) s = .next { s with result := .fault .addressOutOfRange }

/-- R201 case (f): drawing the same sprite twice restores the screen, and the second draw reports a collision when the first
turned a pixel on. Where x or y is VF the second origin is another (case (b)), so both are other registers here. -/
def Obligations.DrawingTwiceRestoresTheScreen : Prop :=
  ∀ (x y n : Nibble) (s : State), x ≠ 0xF → y ≠ 0xF → (n.toNat = 0 ∨ s.i.toNat + n.toNat - 1 ≤ 0xFFF) →
    ∃ t u, exec (.drw x y n) s = .next t ∧ exec (.drw x y n) t = .next u ∧ u.fb = s.fb ∧
      ((∃ py px, py < 32 ∧ px < 64 ∧ s.spriteOn x y n py px ∧ s.fb.pixel py px = false) → u.getV 0xF = 1)

/-! ### Keys and timers (spec/45_keys_timers.md, spec/60_exceptions.md) -/

/-- R220, R221: the key Vx[3:0] is tested (above 15 this is the spec's decision D6, assumption 12); the two are complements. -/
def Obligations.KeySkips : Prop :=
  (∀ (x : Nibble) (s : State), ∃ t, exec (.skp x) s = .next t ∧
    t.pc = (if s.keys.getLsbD ((s.getV x).toNat % 16) = true then s.pc + 2 else s.pc) ∧
    t.result = .ok ∧ s.keepsAllBut [.pc] t) ∧
  (∀ (x : Nibble) (s : State), ∃ t, exec (.sknp x) s = .next t ∧
    t.pc = (if s.keys.getLsbD ((s.getV x).toNat % 16) = true then s.pc else s.pc + 2) ∧
    t.result = .ok ∧ s.keepsAllBut [.pc] t)

/-- R222, R225, R226: the timer moves; sound is active exactly when the value written to ST is not 0. -/
def Obligations.TimerMoves : Prop :=
  (∀ (x : Nibble) (s : State), ∃ t, exec (.ldVxDt x) s = .next t ∧
    (∀ r, t.getV r = if r = x then s.dt else s.getV r) ∧ t.result = .ok ∧ s.keepsAllBut [.regs] t) ∧
  (∀ (x : Nibble) (s : State), ∃ t, exec (.ldDtVx x) s = .next t ∧
    t.dt = s.getV x ∧ t.result = .ok ∧ s.keepsAllBut [.delay] t) ∧
  (∀ (x : Nibble) (s : State), ∃ t, exec (.ldStVx x) s = .next t ∧
    t.st = s.getV x ∧ (t.soundActive = true ↔ (s.getV x).toNat ≠ 0) ∧ t.result = .ok ∧ s.keepsAllBut [.sound] t)

/-- R224 case (a): a STEP that executes `LD Vx,K` with no key pressed leaves the core as it was before the STEP, PC included,
and reports AwaitingInput. -/
def Obligations.KeyWaitLeavesTheStateAsItWas : Prop :=
  ∀ (s : State) (b : Byte) (op : Word) (x : Nibble),
    s.currentOp = .step 0 b → s.fetch = some op → decodeWord op = some (.ldVxK x) →
    step s = .next { s.consumeOp with keys := 0, rnd := b, result := .awaitingInput }

/-- R223, R224: with a key pressed, Vx gets the least pressed key (which of several is the spec's decision D8, assumption
14). -/
def Obligations.KeyPressIsCaptured : Prop :=
  ∀ (x : Nibble) (s : State), s.keys ≠ 0 → ∃ t k, exec (.ldVxK x) s = .next t ∧
    k < 16 ∧ s.keys.getLsbD k = true ∧ (∀ j, j < k → s.keys.getLsbD j = false) ∧
    (t.getV x).toNat = k ∧ (∀ r, r ≠ x → t.getV r = s.getV r) ∧ t.result = .ok ∧ s.keepsAllBut [.regs] t

/-- R262: TICK moves both timers one toward zero, changes nothing else and never faults; after n TICKs in a row a timer
that held v holds v - n, never below zero, and the rest of the core is as it was. -/
def Obligations.TickDecrementsBothTimers : Prop :=
  (∀ s : State, s.currentOp = .tick → ∃ t, step s = .next t ∧
    t.dt.toNat = s.dt.toNat - 1 ∧ t.st.toNat = s.st.toNat - 1 ∧ t.result = .ok ∧
    s.consumeOp.keepsAllBut [.delay, .sound] t) ∧
  (∀ (n : Nat) (s : State) (rest : List HostOp), s.script = List.replicate n .tick ++ rest →
    ∃ t, Host.Core.run Sys2Proof.core n s = .next t ∧ t.dt.toNat = s.dt.toNat - n ∧ t.st.toNat = s.st.toNat - n ∧
      t.script = rest ∧ s.keepsAllBut [.delay, .sound, .host] t)

/-! ### RESET and LOAD (spec/70_reset_and_hazards.md, spec/10_state.md) -/

/-- R34: the reset state. The values of I, SP, STACK, DT, ST and FB are the spec's decision D11 (assumption 16), the font
bytes its G2 (assumption 8). -/
def Obligations.ResetStateIsAsListed : Prop :=
  (∀ r, State.reset.getV r = 0) ∧ State.reset.i = 0 ∧ State.reset.pc = 0x200 ∧ State.reset.sp = 0 ∧
  (∀ (k : Nat) (h : k < 16), State.reset.stack[k]'h = 0) ∧ State.reset.dt = 0 ∧ State.reset.st = 0 ∧
  (∀ y x, State.reset.fb.pixel y x = false) ∧
  (∀ a, (a < 0x050 ∨ 0x09F < a) → State.reset.mem.read a = 0) ∧
  State.reset.mem.readBytes 0x050 40 =
    [0xF0, 0x90, 0x90, 0x90, 0xF0, 0x20, 0x60, 0x20, 0x20, 0x70, 0xF0, 0x10, 0xF0, 0x80, 0xF0, 0xF0, 0x10, 0xF0, 0x10, 0xF0,
     0x90, 0x90, 0xF0, 0x10, 0x10, 0xF0, 0x80, 0xF0, 0x10, 0xF0, 0xF0, 0x80, 0xF0, 0x90, 0xF0, 0xF0, 0x10, 0x20, 0x40, 0x40] ∧
  State.reset.mem.readBytes 0x078 40 =
    [0xF0, 0x90, 0xF0, 0x90, 0xF0, 0xF0, 0x90, 0xF0, 0x10, 0xF0, 0xF0, 0x90, 0xF0, 0x90, 0x90, 0xE0, 0x90, 0xE0, 0x90, 0xE0,
     0xF0, 0x80, 0x80, 0x80, 0xF0, 0xE0, 0x90, 0x90, 0x90, 0xE0, 0xF0, 0x80, 0xF0, 0x80, 0xF0, 0xF0, 0x80, 0xF0, 0x80, 0x80]

/-- R280: RESET from any state gives the reset state; the key inputs, and the host's own fields, stay (D11, D13). -/
def Obligations.ResetWorksFromAnyState : Prop :=
  ∀ s : State, s.currentOp = .reset →
    step s = .next { State.reset with
      keys := s.keys, rnd := s.rnd, script := s.consumeOp.script, draws := s.consumeOp.draws, result := .ok }

/-- R283, R284: LOAD of up to 3584 bytes is a complete RESET and then the bytes verbatim from 0x200 up; nothing of an earlier
program survives. -/
def Obligations.LoadCopiesTheImage : Prop :=
  ∀ (s : State) (bytes : List Byte), s.currentOp = .load bytes → bytes.length ≤ 3584 →
    ∃ t, step s = .next t ∧
      (∀ k, k < bytes.length → t.mem.read (0x200 + k) = bytes.getD k 0) ∧
      (∀ a, (a < 0x200 ∨ 0x200 + bytes.length ≤ a) → t.mem.read a = State.reset.mem.read a) ∧
      t.result = .ok ∧ State.reset.keepsAllBut [.mem, .host] t

/-- R283, R241: a longer image is rejected and nothing of the core changes (that the reset does not happen is the spec's
decision D12, assumption 17). -/
def Obligations.LoadRejectsALongImage : Prop :=
  ∀ (s : State) (bytes : List Byte), s.currentOp = .load bytes → 3584 < bytes.length →
    step s = .next { s.consumeOp with result := .fault .romTooLarge }

/-! ### The whole machine -/

/-- The invariant of R35 holds at reset. -/
def Obligations.InvariantHoldsAtReset : Prop := State.reset.Inv

/-- R35, R25: every step, whatever the host issues, keeps PC at most 0x10FE, every valid stack entry at most 0x1000 and
memory in its canonical form with no address beyond 0xFFF. -/
def Obligations.EveryStepKeepsTheInvariant : Prop := ∀ s t : State, s.Inv → step s = .next t → t.Inv

/-- R20's "Written by" column over the instructions: one that is not named for a part of the state leaves that part unchanged,
and one that is named for V writes only the registers its rule gives it. The column names every STEP for PC; how each
instruction leaves PC is PcAfterEachInstruction, and here PC is left as it stands, a + 2, by all that do not redirect it. -/
def Obligations.OnlyTheNamedInstructionsWriteEachPart : Prop :=
  ∀ (i : Instr) (s t : State), exec i s = .next t →
    (match i with
      | .ldKk x _ | .addKk x _ | .ldVy x _ | .orVy x _ | .andVy x _ | .xorVy x _ | .rnd x _ | .ldVxDt x | .ldVxK x =>
        ∀ r, r ≠ x → t.getV r = s.getV r
      | .addVy x _ | .subVy x _ | .shrVx x | .subnVy x _ | .shlVx x => ∀ r, r ≠ x → r ≠ 0xF → t.getV r = s.getV r
      | .loadRegs x => ∀ r : Nibble, x.toNat < r.toNat → t.getV r = s.getV r
      | .drw _ _ _ => ∀ r, r ≠ 0xF → t.getV r = s.getV r
      | _ => s.kept t .regs) ∧
    ((match i with | .ldI _ | .addIVx _ | .ldFVx _ => False | _ => True) → s.kept t .index) ∧
    ((match i with
      | .jp _ | .call _ | .ret | .jpV0 _ | .seKk _ _ | .sneKk _ _ | .seVy _ _ | .sneVy _ _ | .skp _ | .sknp _
      | .ldVxK _ => False
      | _ => True) → s.kept t .pc) ∧
    ((match i with | .call _ | .ret => False | _ => True) → t.sp = s.sp) ∧
    ((match i with | .call _ => False | _ => True) → t.stack = s.stack) ∧
    ((match i with | .ldDtVx _ => False | _ => True) → s.kept t .delay) ∧
    ((match i with | .ldStVx _ => False | _ => True) → s.kept t .sound) ∧
    ((match i with | .cls | .drw _ _ _ => False | _ => True) → s.kept t .screen) ∧
    ((match i with | .ldBVx _ | .storeRegs _ => False | _ => True) → s.kept t .mem) ∧
    s.kept t .host

/-- R22: VF changes only by the six flag writers or as the named destination, and a flag is 0 or 1. -/
def Obligations.OnlyFlagWritersTouchVf : Prop :=
  ∀ (i : Instr) (s t : State), exec i s = .next t →
    match i with
    | .addVy x _ | .subVy x _ | .subnVy x _ | .shrVx x | .shlVx x => x ≠ 0xF → (t.getV 0xF = 0 ∨ t.getV 0xF = 1)
    | .drw _ _ _ => t.result = .ok → (t.getV 0xF = 0 ∨ t.getV 0xF = 1)
    | .ldKk x _ | .addKk x _ | .ldVy x _ | .orVy x _ | .andVy x _ | .xorVy x _ | .rnd x _ | .ldVxDt x | .ldVxK x
    | .loadRegs x => x ≠ 0xF → t.getV 0xF = s.getV 0xF
    | _ => t.getV 0xF = s.getV 0xF

/-- R119: how each instruction leaves PC, s.pc being a + 2. That SKP and SKNP test key Vx mod 16 when Vx is above 15 is the
spec's decision D6 (R227, assumption 12). -/
def Obligations.PcAfterEachInstruction : Prop :=
  ∀ (i : Instr) (s t : State), exec i s = .next t →
    t.pc = match i with
      | .jp nnn => nnn.setWidth 16
      | .call nnn => if s.sp.val = 16 then s.pc else nnn.setWidth 16
      | .ret => if s.sp.val = 0 then s.pc else s.stack[s.sp.val - 1]?.getD 0
      | .jpV0 nnn => (s.getV 0).setWidth 16 + nnn.setWidth 16
      | .seKk x kk => if s.getV x = kk then s.pc + 2 else s.pc
      | .sneKk x kk => if s.getV x = kk then s.pc else s.pc + 2
      | .seVy x y => if s.getV x = s.getV y then s.pc + 2 else s.pc
      | .sneVy x y => if s.getV x = s.getV y then s.pc else s.pc + 2
      | .skp x => if s.keys.getLsbD ((s.getV x).toNat % 16) = true then s.pc + 2 else s.pc
      | .sknp x => if s.keys.getLsbD ((s.getV x).toNat % 16) = true then s.pc else s.pc + 2
      | .ldVxK _ => if s.keys = 0 then s.pc - 2 else s.pc
      | _ => s.pc

/-- R112: only SKP, SKNP and `LD Vx,K` use KEYS and only RND uses the random byte; the sample stays for the whole
instruction. -/
def Obligations.InputsAreReadOnlyByTheirInstructions : Prop :=
  ∀ (i : Instr) (s t : State) (k : BitVec 16) (b : Byte), exec i s = .next t →
    ((match i with | .skp _ | .sknp _ | .ldVxK _ => False | _ => True) →
      exec i { s with keys := k } = .next { t with keys := k }) ∧
    ((match i with | .rnd _ _ => False | _ => True) → exec i { s with rnd := b } = .next { t with rnd := b }) ∧
    t.keys = s.keys ∧ t.rnd = s.rnd

/-- R28: the result of an operation is held in no readable state: no step depends on it. -/
def Obligations.NoStepReadsTheResult : Prop := ∀ (s : State) (q : OpResult), step { s with result := q } = step s

/-- R26: stack slots at SP and above cannot be observed: states that differ only there step to states that differ only
there. -/
def Obligations.DeadStackSlotsCannotBeObserved : Prop :=
  ∀ s t s' : State, s.sameButDeadSlots t → step s = .next s' → ∃ t', step t = .next t' ∧ s'.sameButDeadSlots t'

/-- R115, R240, R248: an instruction that faults changes nothing, and only the named instructions raise each fault (that
nothing is half done is the spec's decision D4, assumption 11). -/
def Obligations.FaultsChangeNothingAndComeOnlyFromTheNamed : Prop :=
  ∀ (i : Instr) (s t : State) (f : CoreFault), exec i s = .next t → t.result = .fault f →
    t = { s with result := .fault f } ∧
    match i with
    | .call _ => f = .stackOverflow
    | .ret => f = .stackUnderflow
    | .drw _ _ _ | .ldBVx _ | .storeRegs _ | .loadRegs _ => f = .addressOutOfRange
    | _ => False

/-- R121: a STEP on `JP a` at address a leaves the core unchanged. -/
def Obligations.SelfJumpIsAFixedPoint : Prop :=
  ∀ (s : State) (k : BitVec 16) (b : Byte) (a : Addr), s.currentOp = .step k b → s.pc = a.setWidth 16 →
    s.fetch = some (encode (.jp a)) →
    step s = .next { s.consumeOp with keys := k, rnd := b, result := .ok }
end

