-- ==== Sys2Proof/Laws/Decode.lean ====
section
/-! SUPPORT. The fields of a packed word, for the round trip of decoder and encoder, and the two byte views of a word. -/

namespace Sys2Proof

@[simp] theorem fieldFam_packNnn (f : Nibble) (a : Addr) : fieldFam (packNnn f a) = f := by
  unfold fieldFam packNnn
  rw [BitVec.extractLsb'_append_eq_of_le (by decide)]; simp

@[simp] theorem fieldNnn_packNnn (f : Nibble) (a : Addr) : fieldNnn (packNnn f a) = a := by
  unfold fieldNnn packNnn
  rw [BitVec.extractLsb'_append_eq_of_add_le (by decide)]; simp

@[simp] theorem fieldFam_packXkk (f x : Nibble) (k : Byte) : fieldFam (packXkk f x k) = f := by
  unfold fieldFam packXkk
  rw [BitVec.extractLsb'_append_eq_of_le (by decide), BitVec.extractLsb'_append_eq_of_le (by decide)]; simp

@[simp] theorem fieldX_packXkk (f x : Nibble) (k : Byte) : fieldX (packXkk f x k) = x := by
  unfold fieldX packXkk
  rw [BitVec.extractLsb'_append_eq_of_le (by decide), BitVec.extractLsb'_append_eq_of_add_le (by decide)]; simp

@[simp] theorem fieldKk_packXkk (f x : Nibble) (k : Byte) : fieldKk (packXkk f x k) = k := by
  unfold fieldKk packXkk
  rw [BitVec.extractLsb'_append_eq_of_add_le (by decide)]; simp

@[simp] theorem fieldFam_packXyn (f x y n : Nibble) : fieldFam (packXyn f x y n) = f := by
  unfold fieldFam packXyn
  rw [BitVec.extractLsb'_append_eq_of_le (by decide), BitVec.extractLsb'_append_eq_of_le (by decide),
    BitVec.extractLsb'_append_eq_of_le (by decide)]; simp

@[simp] theorem fieldX_packXyn (f x y n : Nibble) : fieldX (packXyn f x y n) = x := by
  unfold fieldX packXyn
  rw [BitVec.extractLsb'_append_eq_of_le (by decide), BitVec.extractLsb'_append_eq_of_le (by decide),
    BitVec.extractLsb'_append_eq_of_add_le (by decide)]; simp

@[simp] theorem fieldY_packXyn (f x y n : Nibble) : fieldY (packXyn f x y n) = y := by
  unfold fieldY packXyn
  rw [BitVec.extractLsb'_append_eq_of_le (by decide), BitVec.extractLsb'_append_eq_of_add_le (by decide)]; simp

@[simp] theorem fieldN_packXyn (f x y n : Nibble) : fieldN (packXyn f x y n) = n := by
  unfold fieldN packXyn
  rw [BitVec.extractLsb'_append_eq_of_add_le (by decide)]; simp

/-- A word is its two bytes, high byte first (20_memory R51). -/
@[simp] theorem wordOfBytes_high_low (op : Word) : wordOfBytes (highByte op) (lowByte op) = op := by
  unfold wordOfBytes highByte lowByte
  rw [BitVec.extractLsb'_append_extractLsb'_eq_extractLsb' (by decide)]; simp

@[simp] theorem highByte_wordOfBytes (h l : Byte) : highByte (wordOfBytes h l) = h := by
  unfold wordOfBytes highByte
  rw [BitVec.extractLsb'_append_eq_of_le (by decide)]; simp

@[simp] theorem lowByte_wordOfBytes (h l : Byte) : lowByte (wordOfBytes h l) = l := by
  unfold wordOfBytes lowByte
  rw [BitVec.extractLsb'_append_eq_of_add_le (by decide)]; simp

/-- The value of a word of two bytes (20_memory R51). -/
theorem toNat_wordOfBytes (h l : Byte) : (wordOfBytes h l).toNat = h.toNat * 256 + l.toNat := by
  unfold wordOfBytes
  rw [BitVec.toNat_append, ← Nat.shiftLeft_add_eq_or_of_lt l.isLt, Nat.shiftLeft_eq]

/-- Decoding two bytes is decoding their word. -/
theorem decode_pair (hi lo : Byte) (rest : List Byte) : decode (hi :: lo :: rest) =
    match decodeWord (wordOfBytes hi lo) with
    | some i => .instr i rest
    | none => .unknownOpcode (wordOfBytes hi lo) := rfl

/-- Bytes decode to an instruction exactly when their word does (40_step R114). -/
theorem decode_pair_instr (hi lo : Byte) (i : Instr) :
    decode [hi, lo] = .instr i [] ↔ decodeWord (wordOfBytes hi lo) = some i := by
  rw [decode_pair]
  split <;> simp_all

/-- The bits of an `NNN` word (30_encoding R81). -/
theorem getLsbD_packNnn (f : Nibble) (a : Addr) (j : Nat) :
    (packNnn f a).getLsbD j = if j < 12 then a.getLsbD j else f.getLsbD (j - 12) := by
  unfold packNnn
  rw [BitVec.getLsbD_append]

/-- The bits of an `XKK` word (30_encoding R81). -/
theorem getLsbD_packXkk (f x : Nibble) (k : Byte) (j : Nat) :
    (packXkk f x k).getLsbD j =
      if j < 8 then k.getLsbD j else if j - 8 < 4 then x.getLsbD (j - 8) else f.getLsbD (j - 8 - 4) := by
  unfold packXkk
  rw [BitVec.getLsbD_append, BitVec.getLsbD_append]

/-- The bits of an `XYN` word (30_encoding R81). -/
theorem getLsbD_packXyn (f x y n : Nibble) (j : Nat) :
    (packXyn f x y n).getLsbD j =
      if j < 4 then n.getLsbD j else if j - 4 < 4 then y.getLsbD (j - 4)
      else if j - 4 - 4 < 4 then x.getLsbD (j - 4 - 4) else f.getLsbD (j - 4 - 4 - 4) := by
  unfold packXyn
  rw [BitVec.getLsbD_append, BitVec.getLsbD_append, BitVec.getLsbD_append]

/-- Any word is packed from its four nibbles. -/
theorem packXyn_fields (op : Word) : packXyn (fieldFam op) (fieldX op) (fieldY op) (fieldN op) = op := by
  unfold packXyn fieldFam fieldX fieldY fieldN
  rw [BitVec.extractLsb'_append_extractLsb'_eq_extractLsb' (by decide),
    BitVec.extractLsb'_append_extractLsb'_eq_extractLsb' (by decide),
    BitVec.extractLsb'_append_extractLsb'_eq_extractLsb' (by decide)]; simp

/-- Any word is packed from family, x and low byte. -/
theorem packXkk_fields (op : Word) : packXkk (fieldFam op) (fieldX op) (fieldKk op) = op := by
  unfold packXkk fieldFam fieldX fieldKk
  rw [BitVec.extractLsb'_append_extractLsb'_eq_extractLsb' (by decide),
    BitVec.extractLsb'_append_extractLsb'_eq_extractLsb' (by decide)]; simp

/-- Any word is packed from family and address. -/
theorem packNnn_fields (op : Word) : packNnn (fieldFam op) (fieldNnn op) = op := by
  unfold packNnn fieldFam fieldNnn
  rw [BitVec.extractLsb'_append_extractLsb'_eq_extractLsb' (by decide)]; simp

end Sys2Proof
end

