-- ==== Sys2Proof/Laws/State.lean ====
section
/-! SUPPORT. One lemma per field per update of State, so that no proof unfolds a record update; and the register reads. -/

namespace Sys2Proof.Machine

/-! ### `setV`: a register is written -/

@[simp] theorem State.setV_i (s : State) (r : Nibble) (b : Byte) : (s.setV r b).i = s.i := rfl
@[simp] theorem State.setV_pc (s : State) (r : Nibble) (b : Byte) : (s.setV r b).pc = s.pc := rfl
@[simp] theorem State.setV_sp (s : State) (r : Nibble) (b : Byte) : (s.setV r b).sp = s.sp := rfl
@[simp] theorem State.setV_stack (s : State) (r : Nibble) (b : Byte) : (s.setV r b).stack = s.stack := rfl
@[simp] theorem State.setV_dt (s : State) (r : Nibble) (b : Byte) : (s.setV r b).dt = s.dt := rfl
@[simp] theorem State.setV_st (s : State) (r : Nibble) (b : Byte) : (s.setV r b).st = s.st := rfl
@[simp] theorem State.setV_fb (s : State) (r : Nibble) (b : Byte) : (s.setV r b).fb = s.fb := rfl
@[simp] theorem State.setV_mem (s : State) (r : Nibble) (b : Byte) : (s.setV r b).mem = s.mem := rfl
@[simp] theorem State.setV_keys (s : State) (r : Nibble) (b : Byte) : (s.setV r b).keys = s.keys := rfl
@[simp] theorem State.setV_rnd (s : State) (r : Nibble) (b : Byte) : (s.setV r b).rnd = s.rnd := rfl
@[simp] theorem State.setV_result (s : State) (r : Nibble) (b : Byte) : (s.setV r b).result = s.result := rfl
@[simp] theorem State.setV_script (s : State) (r : Nibble) (b : Byte) : (s.setV r b).script = s.script := rfl
@[simp] theorem State.setV_draws (s : State) (r : Nibble) (b : Byte) : (s.setV r b).draws = s.draws := rfl

/-! ### `setFlag`: VF is written -/

@[simp] theorem State.setFlag_i (s : State) (b : Bool) : (s.setFlag b).i = s.i := rfl
@[simp] theorem State.setFlag_pc (s : State) (b : Bool) : (s.setFlag b).pc = s.pc := rfl
@[simp] theorem State.setFlag_sp (s : State) (b : Bool) : (s.setFlag b).sp = s.sp := rfl
@[simp] theorem State.setFlag_stack (s : State) (b : Bool) : (s.setFlag b).stack = s.stack := rfl
@[simp] theorem State.setFlag_dt (s : State) (b : Bool) : (s.setFlag b).dt = s.dt := rfl
@[simp] theorem State.setFlag_st (s : State) (b : Bool) : (s.setFlag b).st = s.st := rfl
@[simp] theorem State.setFlag_fb (s : State) (b : Bool) : (s.setFlag b).fb = s.fb := rfl
@[simp] theorem State.setFlag_mem (s : State) (b : Bool) : (s.setFlag b).mem = s.mem := rfl
@[simp] theorem State.setFlag_keys (s : State) (b : Bool) : (s.setFlag b).keys = s.keys := rfl
@[simp] theorem State.setFlag_rnd (s : State) (b : Bool) : (s.setFlag b).rnd = s.rnd := rfl
@[simp] theorem State.setFlag_result (s : State) (b : Bool) : (s.setFlag b).result = s.result := rfl
@[simp] theorem State.setFlag_script (s : State) (b : Bool) : (s.setFlag b).script = s.script := rfl
@[simp] theorem State.setFlag_draws (s : State) (b : Bool) : (s.setFlag b).draws = s.draws := rfl

/-! ### `withFirstRegs`: V0 to Vx are written -/

@[simp] theorem State.withFirstRegs_i (s : State) (x : Nibble) (bs : List Byte) : (s.withFirstRegs x bs).i = s.i := by simp only [State.withFirstRegs]
@[simp] theorem State.withFirstRegs_pc (s : State) (x : Nibble) (bs : List Byte) : (s.withFirstRegs x bs).pc = s.pc := by simp only [State.withFirstRegs]
@[simp] theorem State.withFirstRegs_sp (s : State) (x : Nibble) (bs : List Byte) : (s.withFirstRegs x bs).sp = s.sp := by simp only [State.withFirstRegs]
@[simp] theorem State.withFirstRegs_stack (s : State) (x : Nibble) (bs : List Byte) : (s.withFirstRegs x bs).stack = s.stack := by simp only [State.withFirstRegs]
@[simp] theorem State.withFirstRegs_dt (s : State) (x : Nibble) (bs : List Byte) : (s.withFirstRegs x bs).dt = s.dt := by simp only [State.withFirstRegs]
@[simp] theorem State.withFirstRegs_st (s : State) (x : Nibble) (bs : List Byte) : (s.withFirstRegs x bs).st = s.st := by simp only [State.withFirstRegs]
@[simp] theorem State.withFirstRegs_fb (s : State) (x : Nibble) (bs : List Byte) : (s.withFirstRegs x bs).fb = s.fb := by simp only [State.withFirstRegs]
@[simp] theorem State.withFirstRegs_mem (s : State) (x : Nibble) (bs : List Byte) : (s.withFirstRegs x bs).mem = s.mem := by simp only [State.withFirstRegs]
@[simp] theorem State.withFirstRegs_keys (s : State) (x : Nibble) (bs : List Byte) : (s.withFirstRegs x bs).keys = s.keys := by simp only [State.withFirstRegs]
@[simp] theorem State.withFirstRegs_rnd (s : State) (x : Nibble) (bs : List Byte) : (s.withFirstRegs x bs).rnd = s.rnd := by simp only [State.withFirstRegs]
@[simp] theorem State.withFirstRegs_result (s : State) (x : Nibble) (bs : List Byte) : (s.withFirstRegs x bs).result = s.result := by simp only [State.withFirstRegs]
@[simp] theorem State.withFirstRegs_script (s : State) (x : Nibble) (bs : List Byte) : (s.withFirstRegs x bs).script = s.script := by simp only [State.withFirstRegs]
@[simp] theorem State.withFirstRegs_draws (s : State) (x : Nibble) (bs : List Byte) : (s.withFirstRegs x bs).draws = s.draws := by simp only [State.withFirstRegs]

/-! ### `advance`: phase 2 of a STEP -/

@[simp] theorem State.advance_v (s : State) : (s.advance).v = s.v := rfl
@[simp] theorem State.advance_i (s : State) : (s.advance).i = s.i := rfl
@[simp] theorem State.advance_pc (s : State) : (s.advance).pc = s.pc + 2 := rfl
@[simp] theorem State.advance_sp (s : State) : (s.advance).sp = s.sp := rfl
@[simp] theorem State.advance_stack (s : State) : (s.advance).stack = s.stack := rfl
@[simp] theorem State.advance_dt (s : State) : (s.advance).dt = s.dt := rfl
@[simp] theorem State.advance_st (s : State) : (s.advance).st = s.st := rfl
@[simp] theorem State.advance_fb (s : State) : (s.advance).fb = s.fb := rfl
@[simp] theorem State.advance_mem (s : State) : (s.advance).mem = s.mem := rfl
@[simp] theorem State.advance_keys (s : State) : (s.advance).keys = s.keys := rfl
@[simp] theorem State.advance_rnd (s : State) : (s.advance).rnd = s.rnd := rfl
@[simp] theorem State.advance_result (s : State) : (s.advance).result = s.result := rfl
@[simp] theorem State.advance_script (s : State) : (s.advance).script = s.script := rfl
@[simp] theorem State.advance_draws (s : State) : (s.advance).draws = s.draws := rfl

/-! ### `sample`: the inputs of a STEP -/

@[simp] theorem State.sample_v (s : State) (k : BitVec 16) (b : Byte) : (s.sample k b).v = s.v := rfl
@[simp] theorem State.sample_i (s : State) (k : BitVec 16) (b : Byte) : (s.sample k b).i = s.i := rfl
@[simp] theorem State.sample_pc (s : State) (k : BitVec 16) (b : Byte) : (s.sample k b).pc = s.pc := rfl
@[simp] theorem State.sample_sp (s : State) (k : BitVec 16) (b : Byte) : (s.sample k b).sp = s.sp := rfl
@[simp] theorem State.sample_stack (s : State) (k : BitVec 16) (b : Byte) : (s.sample k b).stack = s.stack := rfl
@[simp] theorem State.sample_dt (s : State) (k : BitVec 16) (b : Byte) : (s.sample k b).dt = s.dt := rfl
@[simp] theorem State.sample_st (s : State) (k : BitVec 16) (b : Byte) : (s.sample k b).st = s.st := rfl
@[simp] theorem State.sample_fb (s : State) (k : BitVec 16) (b : Byte) : (s.sample k b).fb = s.fb := rfl
@[simp] theorem State.sample_mem (s : State) (k : BitVec 16) (b : Byte) : (s.sample k b).mem = s.mem := rfl
@[simp] theorem State.sample_keys (s : State) (k : BitVec 16) (b : Byte) : (s.sample k b).keys = k := rfl
@[simp] theorem State.sample_rnd (s : State) (k : BitVec 16) (b : Byte) : (s.sample k b).rnd = b := rfl
@[simp] theorem State.sample_result (s : State) (k : BitVec 16) (b : Byte) : (s.sample k b).result = s.result := rfl
@[simp] theorem State.sample_script (s : State) (k : BitVec 16) (b : Byte) : (s.sample k b).script = s.script := rfl
@[simp] theorem State.sample_draws (s : State) (k : BitVec 16) (b : Byte) : (s.sample k b).draws = s.draws := rfl

/-! ### `resetCore`: RESET -/

@[simp] theorem State.resetCore_v (s : State) : (s.resetCore).v = State.reset.v := by simp only [State.resetCore]
@[simp] theorem State.resetCore_i (s : State) : (s.resetCore).i = State.reset.i := by simp only [State.resetCore]
@[simp] theorem State.resetCore_pc (s : State) : (s.resetCore).pc = State.reset.pc := by simp only [State.resetCore]
@[simp] theorem State.resetCore_sp (s : State) : (s.resetCore).sp = State.reset.sp := by simp only [State.resetCore]
@[simp] theorem State.resetCore_stack (s : State) : (s.resetCore).stack = State.reset.stack := by simp only [State.resetCore]
@[simp] theorem State.resetCore_dt (s : State) : (s.resetCore).dt = State.reset.dt := by simp only [State.resetCore]
@[simp] theorem State.resetCore_st (s : State) : (s.resetCore).st = State.reset.st := by simp only [State.resetCore]
@[simp] theorem State.resetCore_fb (s : State) : (s.resetCore).fb = State.reset.fb := by simp only [State.resetCore]
@[simp] theorem State.resetCore_mem (s : State) : (s.resetCore).mem = State.reset.mem := by simp only [State.resetCore]
@[simp] theorem State.resetCore_keys (s : State) : (s.resetCore).keys = s.keys := by simp only [State.resetCore]
@[simp] theorem State.resetCore_rnd (s : State) : (s.resetCore).rnd = s.rnd := by simp only [State.resetCore]
@[simp] theorem State.resetCore_result (s : State) : (s.resetCore).result = .ok := by simp only [State.resetCore]
@[simp] theorem State.resetCore_script (s : State) : (s.resetCore).script = s.script := by simp only [State.resetCore]
@[simp] theorem State.resetCore_draws (s : State) : (s.resetCore).draws = s.draws := by simp only [State.resetCore]

/-! ### `skipIf`: a skip -/

@[simp] theorem State.skipIf_v (s : State) (b : Bool) : (s.skipIf b).v = s.v := by cases b <;> rfl
@[simp] theorem State.skipIf_i (s : State) (b : Bool) : (s.skipIf b).i = s.i := by cases b <;> rfl
@[simp] theorem State.skipIf_pc (s : State) (b : Bool) : (s.skipIf b).pc = if b then s.pc + 2 else s.pc := by cases b <;> rfl
@[simp] theorem State.skipIf_sp (s : State) (b : Bool) : (s.skipIf b).sp = s.sp := by cases b <;> rfl
@[simp] theorem State.skipIf_stack (s : State) (b : Bool) : (s.skipIf b).stack = s.stack := by cases b <;> rfl
@[simp] theorem State.skipIf_dt (s : State) (b : Bool) : (s.skipIf b).dt = s.dt := by cases b <;> rfl
@[simp] theorem State.skipIf_st (s : State) (b : Bool) : (s.skipIf b).st = s.st := by cases b <;> rfl
@[simp] theorem State.skipIf_fb (s : State) (b : Bool) : (s.skipIf b).fb = s.fb := by cases b <;> rfl
@[simp] theorem State.skipIf_mem (s : State) (b : Bool) : (s.skipIf b).mem = s.mem := by cases b <;> rfl
@[simp] theorem State.skipIf_keys (s : State) (b : Bool) : (s.skipIf b).keys = s.keys := by cases b <;> rfl
@[simp] theorem State.skipIf_rnd (s : State) (b : Bool) : (s.skipIf b).rnd = s.rnd := by cases b <;> rfl
@[simp] theorem State.skipIf_result (s : State) (b : Bool) : (s.skipIf b).result = s.result := by cases b <;> rfl
@[simp] theorem State.skipIf_script (s : State) (b : Bool) : (s.skipIf b).script = s.script := by cases b <;> rfl
@[simp] theorem State.skipIf_draws (s : State) (b : Bool) : (s.skipIf b).draws = s.draws := by cases b <;> rfl

/-! ### `consumeOp`: the host has issued an operation -/

@[simp] theorem State.consumeOp_v (s : State) : (s.consumeOp).v = s.v := by unfold State.consumeOp; split <;> simp_all
@[simp] theorem State.consumeOp_i (s : State) : (s.consumeOp).i = s.i := by unfold State.consumeOp; split <;> simp_all
@[simp] theorem State.consumeOp_pc (s : State) : (s.consumeOp).pc = s.pc := by unfold State.consumeOp; split <;> simp_all
@[simp] theorem State.consumeOp_sp (s : State) : (s.consumeOp).sp = s.sp := by unfold State.consumeOp; split <;> simp_all
@[simp] theorem State.consumeOp_stack (s : State) : (s.consumeOp).stack = s.stack := by unfold State.consumeOp; split <;> simp_all
@[simp] theorem State.consumeOp_dt (s : State) : (s.consumeOp).dt = s.dt := by unfold State.consumeOp; split <;> simp_all
@[simp] theorem State.consumeOp_st (s : State) : (s.consumeOp).st = s.st := by unfold State.consumeOp; split <;> simp_all
@[simp] theorem State.consumeOp_fb (s : State) : (s.consumeOp).fb = s.fb := by unfold State.consumeOp; split <;> simp_all
@[simp] theorem State.consumeOp_mem (s : State) : (s.consumeOp).mem = s.mem := by unfold State.consumeOp; split <;> simp_all
@[simp] theorem State.consumeOp_keys (s : State) : (s.consumeOp).keys = s.keys := by unfold State.consumeOp; split <;> simp_all
@[simp] theorem State.consumeOp_rnd (s : State) : (s.consumeOp).rnd = s.rnd := by unfold State.consumeOp; split <;> simp_all
@[simp] theorem State.consumeOp_result (s : State) : (s.consumeOp).result = s.result := by unfold State.consumeOp; split <;> simp_all
@[simp] theorem State.consumeOp_script (s : State) : (s.consumeOp).script = s.script.tail := by unfold State.consumeOp; split <;> simp_all

/-! ### Reads of a register -/

/-- An update of any other field leaves the registers as they read. -/
@[simp] theorem State.getV_update (s : State) (i pc : Word) (sp : Fin 17) (stack : Vector Word 16) (dt st : Byte)
    (fb : Framebuffer) (mem : Memory) (keys : BitVec 16) (rnd : Byte) (result : OpResult) (script : List HostOp)
    (draws : Nat) (r : Nibble) :
    State.getV ⟨s.v, i, pc, sp, stack, dt, st, fb, mem, keys, rnd, result, script, draws⟩ r = s.getV r := rfl

/-- A register write is seen by the register written and by no other (10_state R21). -/
@[simp] theorem State.getV_setV (s : State) (q r : Nibble) (b : Byte) :
    (s.setV q b).getV r = if r = q then b else s.getV r := by
  by_cases h : r = q
  · subst h; simp [State.getV, State.setV]
  · have hn : q.toNat ≠ r.toNat := fun e => h (BitVec.eq_of_toNat_eq e.symm)
    simp [State.getV, State.setV, h, hn]

/-- A flag write is seen by VF alone (10_state R22). -/
@[simp] theorem State.getV_setFlag (s : State) (b : Bool) (r : Nibble) :
    (s.setFlag b).getV r = if r = vf then flagByte b else s.getV r := by
  simp [State.setFlag]

@[simp] theorem State.getV_advance (s : State) (r : Nibble) : s.advance.getV r = s.getV r := rfl

@[simp] theorem State.getV_sample (s : State) (k : BitVec 16) (b : Byte) (r : Nibble) :
    (s.sample k b).getV r = s.getV r := rfl

@[simp] theorem State.getV_skipIf (s : State) (b : Bool) (r : Nibble) : (s.skipIf b).getV r = s.getV r := by
  cases b <;> rfl

@[simp] theorem State.getV_consumeOp (s : State) (r : Nibble) : s.consumeOp.getV r = s.getV r := by
  simp [State.getV]

/-- Every register is 0 after RESET (10_state R34). -/
@[simp] theorem State.getV_reset (r : Nibble) : State.reset.getV r = 0 := by
  simp [State.getV, State.reset]

/-- The block load writes V0 to Vx and no other register (43_index R185). -/
@[simp] theorem State.getV_withFirstRegs (s : State) (x : Nibble) (bs : List Byte) (r : Nibble) :
    (s.withFirstRegs x bs).getV r = if r.toNat ≤ x.toNat then bs.getD r.toNat 0 else s.getV r := by
  simp [State.getV, State.withFirstRegs]

/-- Two register files that read alike are one. -/
theorem State.v_ext (s t : State) (h : ∀ r, s.getV r = t.getV r) : s.v = t.v := by
  apply Vector.ext
  intro k hk
  have := h (BitVec.ofNat 4 k)
  have e : (BitVec.ofNat 4 k).toNat = k := by simp; omega
  simpa [State.getV, e] using this

end Sys2Proof.Machine
end

