-- ==== Sys2Proof/Laws/Ops.lean ====
section
/-! SUPPORT. What each named operation can do, said once: memory, stack, bounds checks, how an operation ends, fetch, and
the inversion of a STEP and of a step. -/

namespace Sys2Proof.Machine

/-! ### Memory -/

theorem Memory.read_of_not_mem (m : Memory) (a : Nat) (h : ∀ c ∈ m, c.1 ≠ a) : m.read a = Memory.unlisted a := by
  induction m with
  | nil => rfl
  | cons c rest ih =>
    have hc : c.1 ≠ a := h c (by simp)
    simp only [Memory.read, hc, if_false]
    exact ih (fun d hd => h d (by simp [hd]))

theorem Memory.erase_ne (m : Memory) (a : Nat) : ∀ c ∈ m.erase a, c.1 ≠ a := by
  intro c hc
  simp [Memory.erase] at hc
  exact hc.2

theorem Memory.read_erase_other (m : Memory) (a c : Nat) (h : c ≠ a) : (m.erase a).read c = m.read c := by
  induction m with
  | nil => rfl
  | cons d rest ih =>
    have ih' : Memory.read (rest.filter fun c => decide (c.1 ≠ a)) c = Memory.read rest c := ih
    by_cases hd : d.1 = a
    · simp [Memory.erase, Memory.read, hd] at ih' ⊢
      rw [ih', if_neg (fun e => h e.symm)]
    · simp [Memory.erase, Memory.read, hd] at ih' ⊢
      rw [ih']

theorem Memory.read_insert_same (m : Memory) (a : Nat) (b : Byte) (h : ∀ c ∈ m, c.1 ≠ a) :
    (m.insert a b).read a = b := by
  induction m with
  | nil => simp [Memory.insert, Memory.read]
  | cons c rest ih =>
    have hc : c.1 ≠ a := h c (by simp)
    unfold Memory.insert
    split
    · simp [Memory.read]
    · simp only [Memory.read, hc, if_false]
      exact ih (fun d hd => h d (by simp [hd]))

theorem Memory.read_insert_other (m : Memory) (a c : Nat) (b : Byte) (h : c ≠ a) :
    (m.insert a b).read c = m.read c := by
  induction m with
  | nil => simp [Memory.insert, Memory.read, h.symm]
  | cons d rest ih =>
    unfold Memory.insert
    split
    · simp [Memory.read, h.symm]
    · simp only [Memory.read, ih]

/-- A read after a write to the same address gives the value written (20_memory R59), whatever form the list has. -/
theorem Memory.read_write_same (m : Memory) (a : Nat) (b : Byte) (h : a < 4096) : (m.write a b).read a = b := by
  unfold Memory.write
  rw [if_pos h]
  split
  · rw [Memory.read_of_not_mem _ _ (m.erase_ne a)]; simp_all
  · exact Memory.read_insert_same _ _ _ (m.erase_ne a)

/-- A write leaves every other address alone (20_memory R59). -/
theorem Memory.read_write_other (m : Memory) (a c : Nat) (b : Byte) (h : c ≠ a) : (m.write a b).read c = m.read c := by
  unfold Memory.write
  split
  · split
    · exact Memory.read_erase_other _ _ _ h
    · rw [Memory.read_insert_other _ _ _ _ h, Memory.read_erase_other _ _ _ h]
  · rfl

/-- What a read gives after a block of bytes is written: the byte of the block, or what was there. -/
theorem Memory.read_writeBytes (m : Memory) (a c : Nat) (bs : List Byte) (h : a + bs.length ≤ 4096) :
    (m.writeBytes a bs).read c = if a ≤ c ∧ c < a + bs.length then bs.getD (c - a) 0 else m.read c := by
  induction bs generalizing m a with
  | nil => simp [Memory.writeBytes]
  | cons b bs ih =>
    simp only [List.length_cons] at h ⊢
    rw [Memory.writeBytes, ih _ _ (by omega)]
    by_cases hc : c = a
    · subst hc
      rw [if_neg (by omega), Memory.read_write_same _ _ _ (by omega), if_pos (by omega)]
      simp
    · rw [Memory.read_write_other _ _ _ _ hc]
      by_cases h1 : a + 1 ≤ c ∧ c < a + 1 + bs.length
      · rw [if_pos h1, if_pos (by omega)]
        obtain ⟨k, rfl⟩ : ∃ k, c = a + 1 + k := ⟨c - (a + 1), by omega⟩
        rw [show a + 1 + k - (a + 1) = k by omega, show a + 1 + k - a = k + 1 by omega]
        simp
      · rw [if_neg h1, if_neg (by omega)]

@[simp] theorem Memory.length_readBytes (m : Memory) (a n : Nat) : (m.readBytes a n).length = n := by
  induction n generalizing a with
  | zero => rfl
  | succ n ih => simp [Memory.readBytes, ih]

/-- Byte k of a block read is the byte at a + k. -/
theorem Memory.getD_readBytes (m : Memory) (a n k : Nat) (h : k < n) :
    (m.readBytes a n).getD k 0 = m.read (a + k) := by
  induction n generalizing a k with
  | zero => omega
  | succ n ih =>
    cases k with
    | zero => simp [Memory.readBytes]
    | succ k =>
      have := ih (a + 1) k (by omega)
      simp only [Memory.readBytes, List.getD_cons_succ, this]
      congr 1; omega

/-! ### Memory keeps its canonical form -/

theorem Memory.rising_erase (m : Memory) (a : Nat) (h : m.rising = true) : (m.erase a).rising = true := by
  induction m with
  | nil => rfl
  | cons c rest ih =>
    simp only [Memory.rising, Bool.and_eq_true, List.all_eq_true, decide_eq_true_eq] at h
    have ih' := ih h.2
    unfold Memory.erase at ih' ⊢
    rw [List.filter_cons]
    split
    · simp only [Memory.rising, Bool.and_eq_true, List.all_eq_true, decide_eq_true_eq]
      exact ⟨fun d hd => h.1 d (List.mem_of_mem_filter hd), ih'⟩
    · exact ih'

theorem Memory.mem_insert (m : Memory) (a : Nat) (b : Byte) (d : Host.Cell) :
    d ∈ m.insert a b ↔ d = (a, b) ∨ d ∈ m := by
  induction m with
  | nil => simp [Memory.insert]
  | cons c rest ih =>
    unfold Memory.insert
    split
    · simp
    · simp [ih]; tauto

theorem Memory.rising_insert (m : Memory) (a : Nat) (b : Byte) (h : m.rising = true) (hne : ∀ c ∈ m, c.1 ≠ a) :
    (m.insert a b).rising = true := by
  induction m with
  | nil => rfl
  | cons c rest ih =>
    have hc := hne c (by simp)
    simp only [Memory.rising, Bool.and_eq_true, List.all_eq_true, decide_eq_true_eq] at h
    unfold Memory.insert
    split
    · rename_i hlt
      simp only [Memory.rising, Bool.and_eq_true, List.all_eq_true, decide_eq_true_eq, List.mem_cons, forall_eq_or_imp]
      exact ⟨⟨hlt, fun d hd => Nat.lt_trans hlt (h.1 d hd)⟩, h.1, h.2⟩
    · simp only [Memory.rising, Bool.and_eq_true, List.all_eq_true, decide_eq_true_eq, Memory.mem_insert]
      refine ⟨?_, ih h.2 (fun d hd => hne d (by simp [hd]))⟩
      rintro d (rfl | hd)
      · show c.1 < a; omega
      · exact h.1 d hd

/-- A write keeps the canonical form. -/
theorem Memory.wf_write (m : Memory) (a : Nat) (b : Byte) (h : m.wf = true) : (m.write a b).wf = true := by
  unfold Memory.write
  split
  · rename_i ha
    simp only [Memory.wf, Bool.and_eq_true] at h ⊢
    have he : (m.erase a).rising = true ∧
        ((m.erase a).all fun c => decide (c.1 < Config.memSize) && decide (c.2 ≠ Memory.unlisted c.1)) = true :=
      ⟨Memory.rising_erase m a h.1,
        List.all_eq_true.2 (fun c hc => List.all_eq_true.1 h.2 c (List.mem_of_mem_filter hc))⟩
    split
    · exact he
    · rename_i hb
      refine ⟨Memory.rising_insert _ _ _ he.1 (m.erase_ne a), List.all_eq_true.2 ?_⟩
      intro c hc
      rcases (Memory.mem_insert _ _ _ _).1 hc with rfl | hc
      · simp [ha, hb]
      · exact List.all_eq_true.1 he.2 c hc
  · exact h

/-- A block write keeps the canonical form. -/
theorem Memory.wf_writeBytes (m : Memory) (a : Nat) (bs : List Byte) (h : m.wf = true) :
    (m.writeBytes a bs).wf = true := by
  induction bs generalizing m a with
  | nil => exact h
  | cons b bs ih => exact ih _ _ (Memory.wf_write m a b h)

theorem State.wf_reset_mem : State.reset.mem.wf = true := rfl

/-! ### Bounds checks -/

/-- For one byte or more the check is `a + n - 1 <= 0xFFF` (20_memory R53). -/
theorem inRange_iff (a n : Nat) (h : 0 < n) : inRange a n = true ↔ a + n ≤ 4096 := by
  simp only [inRange, decide_eq_true_eq]; omega

theorem State.memRead_of_inRange (s : State) (a n : Nat) (h : inRange a n = true) :
    s.memRead a n = some (s.mem.readBytes a n) := by simp [State.memRead, h]

theorem State.memRead_of_not (s : State) (a n : Nat) (h : inRange a n = false) : s.memRead a n = none := by
  simp [State.memRead, h]

theorem State.memWrite_of_inRange (s : State) (a : Nat) (bs : List Byte) (h : inRange a bs.length = true) :
    s.memWrite a bs = some { s with mem := s.mem.writeBytes a bs } := by simp [State.memWrite, h]

theorem State.memWrite_of_not (s : State) (a : Nat) (bs : List Byte) (h : inRange a bs.length = false) :
    s.memWrite a bs = none := by simp [State.memWrite, h]

/-- Everything `memWrite` can do. -/
theorem State.memWrite_cases (s : State) (a : Nat) (bs : List Byte) :
    (inRange a bs.length = false ∧ s.memWrite a bs = none) ∨
    (inRange a bs.length = true ∧ s.memWrite a bs = some { s with mem := s.mem.writeBytes a bs }) := by
  cases h : inRange a bs.length
  · exact .inl ⟨rfl, s.memWrite_of_not a bs h⟩
  · exact .inr ⟨rfl, s.memWrite_of_inRange a bs h⟩

/-- Everything `memRead` can do. -/
theorem State.memRead_cases (s : State) (a n : Nat) :
    (inRange a n = false ∧ s.memRead a n = none) ∨
    (inRange a n = true ∧ s.memRead a n = some (s.mem.readBytes a n)) := by
  cases h : inRange a n
  · exact .inl ⟨rfl, s.memRead_of_not a n h⟩
  · exact .inr ⟨rfl, s.memRead_of_inRange a n h⟩

@[simp] theorem length_decimalDigits (b : Byte) : (decimalDigits b).length = 3 := rfl

@[simp] theorem State.length_firstRegs (s : State) (x : Nibble) : (s.firstRegs x).length = x.toNat + 1 := by
  simp [State.firstRegs]

/-- Byte k of the block store is register k (43_index R184). -/
theorem State.getD_firstRegs (s : State) (x : Nibble) (k : Nat) (h : k ≤ x.toNat) :
    (s.firstRegs x).getD k 0 = s.getV (BitVec.ofNat 4 k) := by
  have hk : k < x.toNat + 1 := by omega
  simp [State.firstRegs, List.getD_eq_getElem?_getD, List.getElem?_range hk]

/-! ### Stack -/

theorem State.push_of_lt (s : State) (h : s.sp.val < 16) :
    s.push = some { s with stack := s.stack.set s.sp.val s.pc h, sp := ⟨s.sp.val + 1, Nat.succ_lt_succ h⟩ } := by
  simp [State.push, h]

theorem State.push_full (s : State) (h : ¬s.sp.val < 16) : s.push = none := by simp [State.push, h]

theorem State.pop_of_pos (s : State) (h : 0 < s.sp.val) :
    s.pop = some { s with
      sp := ⟨s.sp.val - 1, Nat.lt_of_le_of_lt (Nat.sub_le _ _) s.sp.isLt⟩
      pc := s.stack[s.sp.val - 1]'(Nat.lt_of_lt_of_le (Nat.sub_lt h Nat.one_pos) (Nat.le_of_lt_succ s.sp.isLt)) } := by
  simp [State.pop, h]

theorem State.pop_empty (s : State) (h : s.sp.val = 0) : s.pop = none := by simp [State.pop, h]

/-! ### How an operation ends -/

theorem State.done_eq (s : State) : s.done = .next { s with result := .ok } := rfl

theorem State.raise_eq (s : State) (f : CoreFault) : s.raise f = .next { s with result := .fault f } := rfl

theorem State.await_eq (s : State) : s.await = .next { s with result := .awaitingInput } := rfl

theorem State.done_next (s t : State) : s.done = .next t ↔ { s with result := .ok } = t := by
  simp [State.done]

theorem State.raise_next (s t : State) (f : CoreFault) : s.raise f = .next t ↔ { s with result := .fault f } = t := by
  simp [State.raise]

theorem State.await_next (s t : State) : s.await = .next t ↔ { s with result := .awaitingInput } = t := by
  simp [State.await]

/-! ### Host operations -/

theorem State.loadImage_fits (s : State) (bs : List Byte) (h : bs.length ≤ 3584) :
    s.loadImage bs = State.done { s.resetCore with mem := s.resetCore.mem.writeBytes 0x200 bs } := by
  simp [State.loadImage, imageFits, h]

theorem State.loadImage_long (s : State) (bs : List Byte) (h : 3584 < bs.length) :
    s.loadImage bs = s.raise .romTooLarge := by
  simp [State.loadImage, imageFits, Nat.not_le.2 h]

/-- One timer's new value (60_exceptions R262). -/
theorem toNat_decrement (b : Byte) : (decrement b).toNat = b.toNat - 1 := by
  by_cases h : b = 0
  · subst h; rfl
  · have h0 : b.toNat ≠ 0 := fun e => h (BitVec.eq_of_toNat_eq (by simpa using e))
    have hb := b.isLt
    have h1 : (1 : Byte).toNat = 1 := rfl
    rw [decrement, if_neg h, BitVec.toNat_sub, h1]
    omega

theorem State.currentOp_cons (s : State) (op : HostOp) (rest : List HostOp) (h : s.script = op :: rest) :
    s.currentOp = op := by simp [State.currentOp, h]

theorem State.currentOp_nil (s : State) (h : s.script = []) : s.currentOp = Config.hostOp s.draws := by
  simp [State.currentOp, h]

theorem State.consumeOp_nil (s : State) (h : s.script = []) : s.consumeOp = { s with draws := s.draws + 1 } := by
  simp [State.consumeOp, h]

theorem State.consumeOp_cons (s : State) (op : HostOp) (rest : List HostOp) (h : s.script = op :: rest) :
    s.consumeOp = { s with script := rest } := by simp [State.consumeOp, h]

/-! ### Fetch, STEP and step -/

theorem State.fetch_of_le (s : State) (h : s.pc.toNat + 1 ≤ 0xFFF) :
    s.fetch = some (wordOfBytes (s.mem.read s.pc.toNat) (s.mem.read (s.pc.toNat + 1))) := by
  simp [State.fetch, Nat.not_lt.2 h]

theorem State.fetch_of_gt (s : State) (h : 0xFFF < s.pc.toNat + 1) : s.fetch = none := by
  simp only [State.fetch, gt_iff_lt, h, if_true]

/-- A word was fetched only where both its bytes exist (20_memory R54). -/
theorem State.fetch_some_bound (s : State) (op : Word) (h : s.fetch = some op) : s.pc.toNat ≤ 0xFFE := by
  unfold State.fetch at h
  split at h
  · simp at h
  · omega

/-- Everything a STEP can do (40_step R110): a failed fetch, an unknown word, or the decoded instruction. -/
theorem cycle_cases (s t : State) (h : cycle s = .next t) :
    (s.fetch = none ∧ t = { s with result := .fault .addressOutOfRange }) ∨
    (∃ op, s.fetch = some op ∧ decodeWord op = none ∧ t = { s.advance with result := .fault (.unknownOpcode op) }) ∨
    (∃ op i, s.fetch = some op ∧ decodeWord op = some i ∧ exec i s.advance = .next t) := by
  unfold cycle at h
  split at h
  · rename_i hf
    exact .inl ⟨hf, ((State.raise_next _ _ _).1 h).symm⟩
  · rename_i op hf
    split at h
    · rename_i hd
      exact .inr (.inl ⟨op, hf, hd, ((State.raise_next _ _ _).1 h).symm⟩)
    · rename_i i hd
      exact .inr (.inr ⟨op, i, hf, hd, h⟩)

/-- Everything a step can do (10_state R40): RESET, LOAD, TICK or a STEP. -/
theorem step_cases (s t : State) (h : step s = .next t) :
    (s.currentOp = .reset ∧ t = s.consumeOp.resetCore) ∨
    (∃ bs, s.currentOp = .load bs ∧ s.consumeOp.loadImage bs = .next t) ∨
    (s.currentOp = .tick ∧ s.consumeOp.tick = .next t) ∨
    (∃ k b, s.currentOp = .step k b ∧ cycle (s.consumeOp.sample k b) = .next t) := by
  unfold step perform at h
  split at h
  · rename_i ho
    exact .inl ⟨ho, ((State.done_next _ _).1 h).symm⟩
  · rename_i bs ho
    exact .inr (.inl ⟨bs, ho, h⟩)
  · rename_i k b ho
    exact .inr (.inr (.inr ⟨k, b, ho, h⟩))
  · rename_i ho
    exact .inr (.inr (.inl ⟨ho, h⟩))

/-- A run whose first step answers a next state goes on from it. -/
theorem run_succ_of_next (M : Host.Core) (n : Nat) (s t : M.State) (h : M.step s = .next t) :
    M.run (n + 1) s = M.run n t := by
  rw [Host.Core.run, h]

end Sys2Proof.Machine
end

