-- ==== Sys2Proof/Laws/Display.lean ====
section
/-! SUPPORT. What the blit of spec/44_display.md R201 does to each pixel and to the collision bit, said once. -/

namespace Sys2Proof.Machine

/-- Flipping on q and then on r is flipping on q or r, where the two exclude each other. -/
theorem flip_flip {p q r : Prop} (h : q → ¬r) : ¬(¬(p ↔ q) ↔ r) ↔ ¬(p ↔ (q ∨ r)) := by
  by_cases hp : p <;> by_cases hq : q <;> by_cases hr : r <;> simp_all

/-- What is on after a flip that does not touch it was on before. -/
theorem flip_off {p q : Prop} (h : ¬q) : ¬(p ↔ q) ↔ p := by
  by_cases hp : p <;> simp_all

/-- Toggling flips its pixel and no other (44_display R201). -/
theorem Framebuffer.pixel_toggle (f : Framebuffer) (py px y x : Nat) (hx : x < 64) (hpx : px < 64) :
    (f.toggle py px).pixel y x = (f.pixel y x ^^ (decide (y = py) && decide (x = px) && decide (y < 32))) := by
  unfold Framebuffer.toggle Framebuffer.pixel
  by_cases hy : y < 32
  · by_cases hpy : py < 32
    · by_cases e : y = py
      · subst e
        have key : ((1#64 <<< px).getLsbD x) = decide (x = px) := by
          rw [BitVec.getLsbD_shiftLeft]
          by_cases h1 : x = px
          · subst h1; simp [hx]
          · rcases Nat.lt_or_gt_of_ne h1 with h | h
            · simp [hx, h, h1]
            · have : x - px ≠ 0 := by omega
              simp [h1, this]
        simp [hy, key]
      · have e' : py ≠ y := fun h => e h.symm
        simp [hy, hpy, e, e']
    · have e : y ≠ py := by omega
      simp [hy, hpy, e]
  · have e : (decide (y = py) && decide (x = px) && decide (y < 32)) = false := by simp [hy]
    rw [e, dif_neg hy, dif_neg hy]; rfl

@[simp] theorem Framebuffer.pixel_clear (y x : Nat) : Framebuffer.clear.pixel y x = false := by
  simp [Framebuffer.clear, Framebuffer.pixel]

theorem Framebuffer.pixel_outside (f : Framebuffer) (y x : Nat) (h : 32 ≤ y ∨ 64 ≤ x) : f.pixel y x = false := by
  unfold Framebuffer.pixel
  split
  · exact BitVec.getLsbD_of_ge _ _ (by omega)
  · rfl

/-- Two framebuffers that show the same pixels are one. -/
theorem Framebuffer.ext_pixel (f g : Framebuffer) (h : ∀ y x, y < 32 → x < 64 → f.pixel y x = g.pixel y x) : f = g := by
  apply Vector.ext
  intro y hy
  apply BitVec.eq_of_getLsbD_eq
  intro x hx
  have := h y x hy hx
  simpa [Framebuffer.pixel, hy] using this

/-- Whether the columns c to c + left - 1 of a sprite row at (py, x0) put a toggle on pixel (y, x), clipping included
(44_display R202, R203). -/
def columnsCover (x0 py : Nat) (row : Byte) (c left y x : Nat) : Prop :=
  y = py ∧ x ≤ 63 ∧ ∃ d, c ≤ d ∧ d < c + left ∧ x0 + d = x ∧ spritePixel row d = true

/-- A row's blit flips exactly the covered pixels, and `hit` notes exactly the covered pixels that were on
(44_display R201, R204). -/
theorem drawColumns_spec (x0 py : Nat) (row : Byte) (b : Blit) (c left : Nat) (hpy : py < 32) :
    (∀ y x, y < 32 → x < 64 →
      ((drawColumns x0 py row b c left).fb.pixel y x = true ↔
        ¬(b.fb.pixel y x = true ↔ columnsCover x0 py row c left y x))) ∧
    ((drawColumns x0 py row b c left).hit = true ↔
      b.hit = true ∨ ∃ y x, y < 32 ∧ x < 64 ∧ columnsCover x0 py row c left y x ∧ b.fb.pixel y x = true) := by
  induction left generalizing b c with
  | zero =>
    have none : ∀ y x, ¬columnsCover x0 py row c 0 y x := by
      rintro y x ⟨_, _, d, h1, h2, _⟩; omega
    simp [drawColumns, none]
  | succ left ih =>
    rw [drawColumns]
    by_cases hc : x0 + c ≤ 63 ∧ spritePixel row c = true
    · rw [if_pos hc]
      obtain ⟨ih1, ih2⟩ := ih (plot b py (x0 + c)) (c + 1)
      have split : ∀ y x, columnsCover x0 py row c (left + 1) y x ↔
          (y = py ∧ x = x0 + c) ∨ columnsCover x0 py row (c + 1) left y x := by
        intro y x
        constructor
        · rintro ⟨h1, h2, d, h3, h4, h5, h6⟩
          by_cases e : d = c
          · exact .inl ⟨h1, by omega⟩
          · exact .inr ⟨h1, h2, d, by omega, by omega, h5, h6⟩
        · rintro (⟨h1, h2⟩ | ⟨h1, h2, d, h3, h4, h5, h6⟩)
          · exact ⟨h1, by omega, c, by omega, by omega, h2.symm, hc.2⟩
          · exact ⟨h1, h2, d, by omega, by omega, h5, h6⟩
      have excl : ∀ y x, y = py ∧ x = x0 + c → ¬columnsCover x0 py row (c + 1) left y x := by
        rintro y x ⟨h1, h2⟩ ⟨_, _, d, h3, _, h5, _⟩; omega
      have plotted : ∀ y x, y < 32 → x < 64 → ((plot b py (x0 + c)).fb.pixel y x = true ↔
          ¬(b.fb.pixel y x = true ↔ (y = py ∧ x = x0 + c))) := by
        intro y x hy hx
        rw [plot, Framebuffer.pixel_toggle _ _ _ _ _ hx (by omega)]
        cases b.fb.pixel y x
        · simp [hy]
        · simp [hy]; tauto
      constructor
      · intro y x hy hx
        rw [ih1 y x hy hx, plotted y x hy hx, split]
        exact flip_flip (excl y x)
      · rw [ih2]
        simp only [plot, Bool.or_eq_true]
        constructor
        · rintro ((h | h) | ⟨y, x, hy, hx, h1, h2⟩)
          · exact .inl h
          · exact .inr ⟨py, x0 + c, hpy, by omega, (split _ _).2 (.inl ⟨rfl, rfl⟩), h⟩
          · have h3 := (plotted y x hy hx).1 h2
            have h4 : ¬(y = py ∧ x = x0 + c) := fun e => excl y x e h1
            exact .inr ⟨y, x, hy, hx, (split _ _).2 (.inr h1), (flip_off h4).1 h3⟩
        · rintro (h | ⟨y, x, hy, hx, h1, h2⟩)
          · exact .inl (.inl h)
          · rcases (split _ _).1 h1 with ⟨rfl, rfl⟩ | h3
            · exact .inl (.inr h2)
            · have h4 : ¬(y = py ∧ x = x0 + c) := fun e => excl y x e h3
              exact .inr ⟨y, x, hy, hx, h3, (plotted y x hy hx).2 ((flip_off h4).2 h2)⟩
    · rw [if_neg hc]
      have same : ∀ y x, columnsCover x0 py row c (left + 1) y x ↔ columnsCover x0 py row (c + 1) left y x := by
        intro y x
        constructor
        · rintro ⟨h1, h2, d, h3, h4, h5, h6⟩
          have : d ≠ c := by rintro rfl; exact hc ⟨by omega, h6⟩
          exact ⟨h1, h2, d, by omega, by omega, h5, h6⟩
        · rintro ⟨h1, h2, d, h3, h4, h5, h6⟩
          exact ⟨h1, h2, d, by omega, by omega, h5, h6⟩
      simp only [same]
      exact ih b (c + 1)

/-- Whether a sprite whose row 0 stands at (py, x0) puts a toggle on pixel (y, x): row r covers row py + r of the grid,
column c covers column x0 + c, and nothing beyond row 31 or column 63 is covered (44_display R202, R203). -/
def spriteCovers (x0 py : Nat) (rows : List Byte) (y x : Nat) : Prop :=
  y ≤ 31 ∧ x ≤ 63 ∧ ∃ r c, r < rows.length ∧ c < 8 ∧ py + r = y ∧ x0 + c = x ∧ spritePixel (rows.getD r 0) c = true

/-- The blit flips exactly the covered pixels, and `hit` notes exactly the covered pixels that were on (44_display R201,
R204). -/
theorem drawRows_spec (x0 py : Nat) (b : Blit) (rows : List Byte) :
    (∀ y x, y < 32 → x < 64 →
      ((drawRows x0 py b rows).fb.pixel y x = true ↔ ¬(b.fb.pixel y x = true ↔ spriteCovers x0 py rows y x))) ∧
    ((drawRows x0 py b rows).hit = true ↔
      b.hit = true ∨ ∃ y x, y < 32 ∧ x < 64 ∧ spriteCovers x0 py rows y x ∧ b.fb.pixel y x = true) := by
  induction rows generalizing b py with
  | nil =>
    have none : ∀ y x, ¬spriteCovers x0 py [] y x := by
      rintro y x ⟨_, _, r, c, h, _⟩; simp at h
    simp [drawRows, none]
  | cons row rows ih =>
    rw [drawRows]
    have split : ∀ y x, y < 32 → x < 64 → (spriteCovers x0 py (row :: rows) y x ↔
        (columnsCover x0 py row 0 8 y x) ∨ spriteCovers x0 (py + 1) rows y x) := by
      intro y x hy hx
      constructor
      · rintro ⟨h1, h2, r, c, h3, h4, h5, h6, h7⟩
        cases r with
        | zero => exact .inl ⟨by omega, h2, c, by omega, by omega, h6, by simpa using h7⟩
        | succ r => exact .inr ⟨h1, h2, r, c, by simpa using h3, h4, by omega, h6, by simpa using h7⟩
      · rintro (⟨h1, h2, d, h3, h4, h5, h6⟩ | ⟨h1, h2, r, c, h3, h4, h5, h6, h7⟩)
        · exact ⟨by omega, h2, 0, d, by simp, by omega, by omega, h5, by simpa using h6⟩
        · exact ⟨h1, h2, r + 1, c, by simpa using h3, h4, by omega, h6, by simpa using h7⟩
    have excl : ∀ y x, columnsCover x0 py row 0 8 y x → ¬spriteCovers x0 (py + 1) rows y x := by
      rintro y x ⟨h1, _⟩ ⟨_, _, r, c, _, _, h5, _⟩; omega
    by_cases hp : py ≤ 31
    · rw [if_pos hp]
      obtain ⟨hr1, hr2⟩ := drawColumns_spec x0 py row b 0 8 (by omega)
      obtain ⟨ih1, ih2⟩ := ih (py + 1) (drawColumns x0 py row b 0 8)
      constructor
      · intro y x hy hx
        rw [ih1 y x hy hx, hr1 y x hy hx, split y x hy hx]
        exact flip_flip (excl y x)
      · rw [ih2, hr2]
        constructor
        · rintro ((h | ⟨y, x, hy, hx, h1, h2⟩) | ⟨y, x, hy, hx, h1, h2⟩)
          · exact .inl h
          · exact .inr ⟨y, x, hy, hx, (split y x hy hx).2 (.inl h1), h2⟩
          · have h3 := (hr1 y x hy hx).1 h2
            have h4 : ¬columnsCover x0 py row 0 8 y x := fun e => excl y x e h1
            exact .inr ⟨y, x, hy, hx, (split y x hy hx).2 (.inr h1), (flip_off h4).1 h3⟩
        · rintro (h | ⟨y, x, hy, hx, h1, h2⟩)
          · exact .inl (.inl h)
          · rcases (split y x hy hx).1 h1 with h3 | h3
            · exact .inl (.inr ⟨y, x, hy, hx, h3, h2⟩)
            · have h4 : ¬columnsCover x0 py row 0 8 y x := fun e => excl y x e h3
              exact .inr ⟨y, x, hy, hx, h3, (hr1 y x hy hx).2 ((flip_off h4).2 h2)⟩
    · rw [if_neg hp]
      obtain ⟨ih1, ih2⟩ := ih (py + 1) b
      have noRow : ∀ y x, y < 32 → ¬columnsCover x0 py row 0 8 y x := by
        rintro y x hy ⟨h1, _⟩; omega
      constructor
      · intro y x hy hx
        rw [ih1 y x hy hx, split y x hy hx]
        rw [or_iff_right (noRow y x hy)]
      · rw [ih2]
        constructor
        · rintro (h | ⟨y, x, hy, hx, h1, h2⟩)
          · exact .inl h
          · exact .inr ⟨y, x, hy, hx, (split y x hy hx).2 (.inr h1), h2⟩
        · rintro (h | ⟨y, x, hy, hx, h1, h2⟩)
          · exact .inl h
          · rcases (split y x hy hx).1 h1 with h3 | h3
            · exact absurd h3 (noRow y x hy)
            · exact .inr ⟨y, x, hy, hx, h3, h2⟩

end Sys2Proof.Machine
end

