-- ==== Sys2Proof/Laws/Exec.lean ====
section
/-! SUPPORT. The instructions that can end in more than one way, each in its completing case as one state, for the statements
about them to cite; and the key selection. -/

namespace Sys2Proof.Machine

/-- Everything `pop` can do. -/
theorem State.pop_cases (s : State) :
    (s.sp.val = 0 ∧ s.pop = none) ∨
    (∃ (_ : 0 < s.sp.val) (h16 : s.sp.val - 1 < 16) (h17 : s.sp.val - 1 < 17),
      s.pop = some { s with sp := ⟨s.sp.val - 1, h17⟩, pc := s.stack[s.sp.val - 1]'h16 }) := by
  by_cases h : 0 < s.sp.val
  · exact .inr ⟨h, by have := s.sp.isLt; omega, by have := s.sp.isLt; omega, s.pop_of_pos h⟩
  · exact .inl ⟨by omega, s.pop_empty (by omega)⟩

/-- Everything `push` can do. -/
theorem State.push_cases (s : State) :
    (s.sp.val = 16 ∧ s.push = none) ∨
    (∃ (h : s.sp.val < 16) (h17 : s.sp.val + 1 < 17),
      s.push = some { s with stack := s.stack.set s.sp.val s.pc h, sp := ⟨s.sp.val + 1, h17⟩ }) := by
  by_cases h : s.sp.val < 16
  · exact .inr ⟨h, by omega, s.push_of_lt h⟩
  · exact .inl ⟨by have := s.sp.isLt; omega, s.push_full h⟩

/-- `RET` with an entry on the stack (41_flow R130). -/
theorem execRet_of_pos (s : State) (h : 0 < s.sp.val) (h16 : s.sp.val - 1 < 16) (h17 : s.sp.val - 1 < 17) :
    execRet s = .next { s with sp := ⟨s.sp.val - 1, h17⟩, pc := s.stack[s.sp.val - 1]'h16, result := .ok } := by
  rw [execRet, s.pop_of_pos h]; rfl

/-- `CALL` with a free slot (41_flow R134). -/
theorem execCall_of_lt (nnn : Addr) (s : State) (h : s.sp.val < 16) (h17 : s.sp.val + 1 < 17) :
    execCall nnn s = .next { s with
      stack := s.stack.set s.sp.val s.pc h, sp := ⟨s.sp.val + 1, h17⟩, pc := nnn.zext, result := .ok } := by
  rw [execCall, s.push_of_lt h]; rfl

/-- `LD B,Vx` in range (43_index R183). -/
theorem execLdBVx_inRange (x : Nibble) (s : State) (h : s.i.toNat + 2 ≤ 0xFFF) :
    execLdBVx x s = .next { s with
      mem := s.mem.writeBytes s.i.toNat (decimalDigits (s.getV x)), result := .ok } := by
  have hr : inRange s.i.toNat (decimalDigits (s.getV x)).length = true := by
    rw [length_decimalDigits, inRange_iff _ _ (by omega)]; omega
  rw [execLdBVx, s.memWrite_of_inRange _ _ hr]; rfl

/-- `LD [I],Vx` in range (43_index R184). -/
theorem execStoreRegs_inRange (x : Nibble) (s : State) (h : s.i.toNat + x.toNat ≤ 0xFFF) :
    execStoreRegs x s = .next { s with mem := s.mem.writeBytes s.i.toNat (s.firstRegs x), result := .ok } := by
  have hr : inRange s.i.toNat (s.firstRegs x).length = true := by
    rw [State.length_firstRegs, inRange_iff _ _ (by omega)]; omega
  rw [execStoreRegs, s.memWrite_of_inRange _ _ hr]; rfl

/-- `LD Vx,[I]` in range (43_index R185). -/
theorem execLoadRegs_inRange (x : Nibble) (s : State) (h : s.i.toNat + x.toNat ≤ 0xFFF) :
    execLoadRegs x s =
      .next { s with v := (s.withFirstRegs x (s.mem.readBytes s.i.toNat (x.toNat + 1))).v, result := .ok } := by
  have hr : inRange s.i.toNat (x.toNat + 1) = true := by
    rw [inRange_iff _ _ (by omega)]; omega
  rw [execLoadRegs, s.memRead_of_inRange _ _ hr]; rfl

/-- The blit of `DRW Vx,Vy,n` in state s. -/
abbrev State.blit (s : State) (x y n : Nibble) : Blit :=
  drawRows (originX (s.getV x)) (originY (s.getV y)) ⟨s.fb, false⟩ (s.mem.readBytes s.i.toNat n.toNat)

/-- `DRW Vx,Vy,n` in range (44_display R201). -/
theorem execDrw_inRange (x y n : Nibble) (s : State) (h : n.toNat = 0 ∨ s.i.toNat + n.toNat - 1 ≤ 0xFFF) :
    execDrw x y n s =
      .next { s with v := (s.setFlag (s.blit x y n).hit).v, fb := (s.blit x y n).fb, result := .ok } := by
  have hr : inRange s.i.toNat n.toNat = true := by simpa [inRange] using h
  rw [execDrw, s.memRead_of_inRange _ _ hr]; rfl

/-- No key is selected exactly when none is pressed (45_keys R223). -/
theorem State.selectedKey_none (s : State) : s.selectedKey = none ↔ s.keys = 0 := by
  unfold State.selectedKey
  rw [List.find?_eq_none]
  constructor
  · intro h
    apply BitVec.eq_of_getLsbD_eq
    intro k hk
    simpa [State.keyDown] using h k (by simpa using hk)
  · intro h k _
    simp [State.keyDown, h]

/-- The selected key is pressed, and no key below it is (45_keys R223). -/
theorem State.selectedKey_some (s : State) (k : Nat) :
    s.selectedKey = some k ↔ k < 16 ∧ s.keyDown k = true ∧ ∀ j, j < k → s.keyDown j = false := by
  unfold State.selectedKey
  rw [List.find?_range_eq_some]
  simp only [List.mem_range, Bool.not_eq_true']
  tauto

/-- `LD Vx,K` with a key selected (45_keys R224). -/
theorem execLdVxK_of_some (x : Nibble) (s : State) (k : Nat) (h : s.selectedKey = some k) :
    execLdVxK x s = .next { s with v := (s.setV x (BitVec.ofNat 8 k)).v, result := .ok } := by
  rw [execLdVxK, h]; rfl

/-- `LD Vx,K` with no key pressed (45_keys R224). -/
theorem execLdVxK_of_none (x : Nibble) (s : State) (h : s.selectedKey = none) :
    execLdVxK x s = .next { s with pc := s.pc - 2, result := .awaitingInput } := by
  rw [execLdVxK, h]; rfl

/-! ### The seven instructions that can end in two ways, inverted: each has exactly the two ends its rule gives -/

/-- Everything `RET` can do (41_flow R130, 60_exceptions R245). -/
theorem execRet_cases (s : State) :
    (s.sp.val = 0 ∧ execRet s = .next { s with result := .fault .stackUnderflow }) ∨
    (∃ (_ : 0 < s.sp.val) (h16 : s.sp.val - 1 < 16) (h17 : s.sp.val - 1 < 17), execRet s =
      .next { s with sp := ⟨s.sp.val - 1, h17⟩, pc := s.stack[s.sp.val - 1]'h16, result := .ok }) := by
  rcases s.pop_cases with ⟨h, e⟩ | ⟨h, h16, h17, -⟩
  · exact .inl ⟨h, by rw [execRet, e]; rfl⟩
  · exact .inr ⟨h, h16, h17, execRet_of_pos s h h16 h17⟩

/-- Everything `CALL` can do (41_flow R134, 60_exceptions R244). -/
theorem execCall_cases (nnn : Addr) (s : State) :
    (s.sp.val = 16 ∧ execCall nnn s = .next { s with result := .fault .stackOverflow }) ∨
    (∃ (h : s.sp.val < 16) (h17 : s.sp.val + 1 < 17), execCall nnn s = .next { s with
      stack := s.stack.set s.sp.val s.pc h, sp := ⟨s.sp.val + 1, h17⟩, pc := nnn.zext, result := .ok }) := by
  rcases s.push_cases with ⟨h, e⟩ | ⟨h, h17, -⟩
  · exact .inl ⟨h, by rw [execCall, e]; rfl⟩
  · exact .inr ⟨h, h17, execCall_of_lt nnn s h h17⟩

/-- Everything `LD B,Vx` can do (43_index R183). -/
theorem execLdBVx_cases (x : Nibble) (s : State) :
    (0xFFF < s.i.toNat + 2 ∧ execLdBVx x s = .next { s with result := .fault .addressOutOfRange }) ∨
    (s.i.toNat + 2 ≤ 0xFFF ∧ execLdBVx x s = .next { s with
      mem := s.mem.writeBytes s.i.toNat (decimalDigits (s.getV x)), result := .ok }) := by
  by_cases h : s.i.toNat + 2 ≤ 0xFFF
  · exact .inr ⟨h, execLdBVx_inRange x s h⟩
  · have hr : inRange s.i.toNat (decimalDigits (s.getV x)).length = false := by
      rw [length_decimalDigits, Bool.eq_false_iff, Ne, inRange_iff _ _ (by omega)]; omega
    exact .inl ⟨by omega, by rw [execLdBVx, s.memWrite_of_not _ _ hr]; rfl⟩

/-- Everything `LD [I],Vx` can do (43_index R184). -/
theorem execStoreRegs_cases (x : Nibble) (s : State) :
    (0xFFF < s.i.toNat + x.toNat ∧ execStoreRegs x s = .next { s with result := .fault .addressOutOfRange }) ∨
    (s.i.toNat + x.toNat ≤ 0xFFF ∧ execStoreRegs x s =
      .next { s with mem := s.mem.writeBytes s.i.toNat (s.firstRegs x), result := .ok }) := by
  by_cases h : s.i.toNat + x.toNat ≤ 0xFFF
  · exact .inr ⟨h, execStoreRegs_inRange x s h⟩
  · have hr : inRange s.i.toNat (s.firstRegs x).length = false := by
      rw [State.length_firstRegs, Bool.eq_false_iff, Ne, inRange_iff _ _ (by omega)]; omega
    exact .inl ⟨by omega, by rw [execStoreRegs, s.memWrite_of_not _ _ hr]; rfl⟩

/-- Everything `LD Vx,[I]` can do (43_index R185). -/
theorem execLoadRegs_cases (x : Nibble) (s : State) :
    (0xFFF < s.i.toNat + x.toNat ∧ execLoadRegs x s = .next { s with result := .fault .addressOutOfRange }) ∨
    (s.i.toNat + x.toNat ≤ 0xFFF ∧ execLoadRegs x s =
      .next { s with v := (s.withFirstRegs x (s.mem.readBytes s.i.toNat (x.toNat + 1))).v, result := .ok }) := by
  by_cases h : s.i.toNat + x.toNat ≤ 0xFFF
  · exact .inr ⟨h, execLoadRegs_inRange x s h⟩
  · have hr : inRange s.i.toNat (x.toNat + 1) = false := by
      rw [Bool.eq_false_iff, Ne, inRange_iff _ _ (by omega)]; omega
    exact .inl ⟨by omega, by rw [execLoadRegs, s.memRead_of_not _ _ hr]; rfl⟩

/-- Everything `DRW Vx,Vy,n` can do (44_display R201). -/
theorem execDrw_cases (x y n : Nibble) (s : State) :
    ((1 ≤ n.toNat ∧ 0xFFF < s.i.toNat + n.toNat - 1) ∧
      execDrw x y n s = .next { s with result := .fault .addressOutOfRange }) ∨
    ((n.toNat = 0 ∨ s.i.toNat + n.toNat - 1 ≤ 0xFFF) ∧ execDrw x y n s =
      .next { s with v := (s.setFlag (s.blit x y n).hit).v, fb := (s.blit x y n).fb, result := .ok }) := by
  by_cases h : n.toNat = 0 ∨ s.i.toNat + n.toNat - 1 ≤ 0xFFF
  · exact .inr ⟨h, execDrw_inRange x y n s h⟩
  · have hr : inRange s.i.toNat n.toNat = false := by simpa [inRange] using h
    exact .inl ⟨by omega, by rw [execDrw, s.memRead_of_not _ _ hr]; rfl⟩

/-- Everything `LD Vx,K` can do (45_keys R224). -/
theorem execLdVxK_cases (x : Nibble) (s : State) :
    (s.selectedKey = none ∧ execLdVxK x s = .next { s with pc := s.pc - 2, result := .awaitingInput }) ∨
    (∃ k, s.selectedKey = some k ∧
      execLdVxK x s = .next { s with v := (s.setV x (BitVec.ofNat 8 k)).v, result := .ok }) := by
  cases h : s.selectedKey with
  | none => exact .inl ⟨rfl, execLdVxK_of_none x s h⟩
  | some k => exact .inr ⟨k, rfl, execLdVxK_of_some x s k h⟩

/-! ### The host's script is no input of an operation -/

/-- No instruction reads or writes the host's script (10_state R20, R40). -/
theorem exec_withScript (i : Instr) (s t : State) (l : List HostOp) (h : exec i s = .next t) :
    exec i { s with script := l } = .next { t with script := l } := by
  have skip : ∀ b : Bool, (s.skipIf b).done = .next t →
      (State.skipIf { s with script := l } b).done = .next { t with script := l } := by
    intro b hb; cases b <;> (cases hb; rfl)
  cases i <;> simp only [exec] at h ⊢
  case seKk | sneKk | seVy | sneVy | skp | sknp => exact skip _ h
  case ret =>
    rcases execRet_cases s with ⟨h0, e⟩ | ⟨h0, h16, h17, e⟩ <;> rw [e] at h <;> cases h
    · rcases execRet_cases { s with script := l } with ⟨_, e⟩ | ⟨h1, _⟩
      · exact e
      · exact absurd h0 (Nat.ne_of_gt h1)
    · exact execRet_of_pos { s with script := l } h0 h16 h17
  case call nnn =>
    rcases execCall_cases nnn s with ⟨h0, e⟩ | ⟨h0, h17, e⟩ <;> rw [e] at h <;> cases h
    · rcases execCall_cases nnn { s with script := l } with ⟨_, e⟩ | ⟨h1, _⟩
      · exact e
      · exact absurd h0 (Nat.ne_of_lt h1)
    · exact execCall_of_lt nnn { s with script := l } h0 h17
  case ldBVx x =>
    rcases execLdBVx_cases x s with ⟨h0, e⟩ | ⟨h0, e⟩ <;> rw [e] at h <;> cases h
    · rcases execLdBVx_cases x { s with script := l } with ⟨_, e⟩ | ⟨h1, _⟩
      · exact e
      · exact absurd h0 (Nat.not_lt.2 h1)
    · exact execLdBVx_inRange x { s with script := l } h0
  case storeRegs x =>
    rcases execStoreRegs_cases x s with ⟨h0, e⟩ | ⟨h0, e⟩ <;> rw [e] at h <;> cases h
    · rcases execStoreRegs_cases x { s with script := l } with ⟨_, e⟩ | ⟨h1, _⟩
      · exact e
      · exact absurd h0 (Nat.not_lt.2 h1)
    · exact execStoreRegs_inRange x { s with script := l } h0
  case loadRegs x =>
    rcases execLoadRegs_cases x s with ⟨h0, e⟩ | ⟨h0, e⟩ <;> rw [e] at h <;> cases h
    · rcases execLoadRegs_cases x { s with script := l } with ⟨_, e⟩ | ⟨h1, _⟩
      · exact e
      · exact absurd h0 (Nat.not_lt.2 h1)
    · exact execLoadRegs_inRange x { s with script := l } h0
  case drw x y n =>
    rcases execDrw_cases x y n s with ⟨h0, e⟩ | ⟨h0, e⟩ <;> rw [e] at h <;> cases h
    · rcases execDrw_cases x y n { s with script := l } with ⟨_, e⟩ | ⟨h1, _⟩
      · exact e
      · have h2 : n.toNat = 0 ∨ s.i.toNat + n.toNat - 1 ≤ 0xFFF := h1
        omega
    · exact execDrw_inRange x y n { s with script := l } h0
  case ldVxK x =>
    rcases execLdVxK_cases x s with ⟨h0, e⟩ | ⟨k, h0, e⟩ <;> rw [e] at h <;> cases h
    · exact execLdVxK_of_none x { s with script := l } h0
    · exact execLdVxK_of_some x { s with script := l } k h0
  all_goals cases h; rfl

/-- No operation reads or writes the host's script: the host's plan does not reach the core (10_state R40). -/
theorem perform_withScript (op : HostOp) (s t : State) (l : List HostOp) (h : perform op s = .next t) :
    perform op { s with script := l } = .next { t with script := l } := by
  cases op with
  | reset => cases h; rfl
  | tick => cases h; rfl
  | load bs =>
    simp only [perform, State.loadImage] at h ⊢
    split at h <;> rename_i hb <;> cases h <;> simp only [hb] <;> rfl
  | step k b =>
    rcases cycle_cases _ _ h with ⟨hf, rfl⟩ | ⟨op, hf, hd, rfl⟩ | ⟨op, i, hf, hd, he⟩
    · have hf' : (State.sample { s with script := l } k b).fetch = none := hf
      simp only [perform, cycle, hf']; rfl
    · have hf' : (State.sample { s with script := l } k b).fetch = some op := hf
      simp only [perform, cycle, hf', hd]; rfl
    · have hf' : (State.sample { s with script := l } k b).fetch = some op := hf
      simp only [perform, cycle, hf', hd]
      exact exec_withScript i _ t l he

end Sys2Proof.Machine
end

