-- ==== Sys2Proof/Laws/PerInstr.lean ====
section
/-! SUPPORT. The family Encoding: for every instruction, as syntax, its operands fit their fields and its word selects its
row of the instruction table (spec/30_encoding.md R86). One lemma per constructor. -/

namespace Sys2Proof.Laws

/-- A value of a field is below two to its width. -/
theorem fits_ofX (x : Nibble) : (OperandField.ofX x).fits = true := by
  exact decide_eq_true x.isLt

theorem fits_ofY (y : Nibble) : (OperandField.ofY y).fits = true := by
  exact decide_eq_true y.isLt

theorem fits_ofN (n : Nibble) : (OperandField.ofN n).fits = true := by
  exact decide_eq_true n.isLt

theorem fits_ofKk (k : Byte) : (OperandField.ofKk k).fits = true := by
  exact decide_eq_true k.isLt

theorem fits_ofNnn (a : Addr) : (OperandField.ofNnn a).fits = true := by
  exact decide_eq_true a.isLt

/-- Every instruction is well formed: the field types see to it (30_encoding R82). -/
theorem wf_all (i : Instr) : i.wf = true := by
  cases i <;> simp [Instr.wf, Instr.fields, fits_ofX, fits_ofY, fits_ofN, fits_ofKk, fits_ofNnn]

/-- The mask F000 keeps the family of an `NNN` word. -/
theorem mask_packNnn (f : Nibble) (a : Addr) : packNnn f a &&& 0xF000 = packNnn f 0 := by
  apply BitVec.eq_of_getLsbD_eq
  intro k hk
  rw [BitVec.getLsbD_and, getLsbD_packNnn, getLsbD_packNnn]
  interval_cases k <;> simp

/-- The mask F000 keeps the family of an `XKK` word. -/
theorem mask_packXkk (f x : Nibble) (k : Byte) : packXkk f x k &&& 0xF000 = packXkk f 0 0 := by
  apply BitVec.eq_of_getLsbD_eq
  intro j hj
  rw [BitVec.getLsbD_and, getLsbD_packXkk, getLsbD_packXkk]
  interval_cases j <;> simp

/-- The mask F0FF keeps family and low byte. -/
theorem maskXs_packXkk (f x : Nibble) (k : Byte) : packXkk f x k &&& 0xF0FF = packXkk f 0 k := by
  apply BitVec.eq_of_getLsbD_eq
  intro j hj
  rw [BitVec.getLsbD_and, getLsbD_packXkk, getLsbD_packXkk]
  interval_cases j <;> simp

/-- The mask F000 keeps the family of an `XY` or `XYN` word. -/
theorem mask_packXyn (f x y n : Nibble) : packXyn f x y n &&& 0xF000 = packXyn f 0 0 0 := by
  apply BitVec.eq_of_getLsbD_eq
  intro j hj
  rw [BitVec.getLsbD_and, getLsbD_packXyn, getLsbD_packXyn]
  interval_cases j <;> simp

/-- The mask F00F keeps family and low nibble. -/
theorem maskXys_packXyn (f x y n : Nibble) : packXyn f x y n &&& 0xF00F = packXyn f 0 0 n := by
  apply BitVec.eq_of_getLsbD_eq
  intro j hj
  rw [BitVec.getLsbD_and, getLsbD_packXyn, getLsbD_packXyn]
  interval_cases j <;> simp

/-- The operands fit and the word selects the instruction's row: `op AND mask = match` (30_encoding R86). -/
def Encoding.Statement (i : Instr) : Prop := i.wf = true ∧ encode i &&& (maskAndMatch i).1 = (maskAndMatch i).2

theorem Encoding.cls : Encoding.Statement .cls := ⟨wf_all _, (maskXs_packXkk _ _ _).trans rfl⟩
theorem Encoding.ret : Encoding.Statement .ret := ⟨wf_all _, (maskXs_packXkk _ _ _).trans rfl⟩
theorem Encoding.jp (nnn : Addr) : Encoding.Statement (.jp nnn) := ⟨wf_all _, (mask_packNnn _ _).trans rfl⟩
theorem Encoding.call (nnn : Addr) : Encoding.Statement (.call nnn) := ⟨wf_all _, (mask_packNnn _ _).trans rfl⟩
theorem Encoding.seKk (x : Nibble) (kk : Byte) : Encoding.Statement (.seKk x kk) :=
  ⟨wf_all _, (mask_packXkk _ _ _).trans rfl⟩
theorem Encoding.sneKk (x : Nibble) (kk : Byte) : Encoding.Statement (.sneKk x kk) :=
  ⟨wf_all _, (mask_packXkk _ _ _).trans rfl⟩
theorem Encoding.seVy (x y : Nibble) : Encoding.Statement (.seVy x y) :=
  ⟨wf_all _, (mask_packXyn _ _ _ _).trans rfl⟩
theorem Encoding.ldKk (x : Nibble) (kk : Byte) : Encoding.Statement (.ldKk x kk) :=
  ⟨wf_all _, (mask_packXkk _ _ _).trans rfl⟩
theorem Encoding.addKk (x : Nibble) (kk : Byte) : Encoding.Statement (.addKk x kk) :=
  ⟨wf_all _, (mask_packXkk _ _ _).trans rfl⟩
theorem Encoding.ldVy (x y : Nibble) : Encoding.Statement (.ldVy x y) :=
  ⟨wf_all _, (maskXys_packXyn _ _ _ _).trans rfl⟩
theorem Encoding.orVy (x y : Nibble) : Encoding.Statement (.orVy x y) :=
  ⟨wf_all _, (maskXys_packXyn _ _ _ _).trans rfl⟩
theorem Encoding.andVy (x y : Nibble) : Encoding.Statement (.andVy x y) :=
  ⟨wf_all _, (maskXys_packXyn _ _ _ _).trans rfl⟩
theorem Encoding.xorVy (x y : Nibble) : Encoding.Statement (.xorVy x y) :=
  ⟨wf_all _, (maskXys_packXyn _ _ _ _).trans rfl⟩
theorem Encoding.addVy (x y : Nibble) : Encoding.Statement (.addVy x y) :=
  ⟨wf_all _, (maskXys_packXyn _ _ _ _).trans rfl⟩
theorem Encoding.subVy (x y : Nibble) : Encoding.Statement (.subVy x y) :=
  ⟨wf_all _, (maskXys_packXyn _ _ _ _).trans rfl⟩
theorem Encoding.shrVx (x : Nibble) : Encoding.Statement (.shrVx x) :=
  ⟨wf_all _, (maskXys_packXyn _ _ _ _).trans rfl⟩
theorem Encoding.subnVy (x y : Nibble) : Encoding.Statement (.subnVy x y) :=
  ⟨wf_all _, (maskXys_packXyn _ _ _ _).trans rfl⟩
theorem Encoding.shlVx (x : Nibble) : Encoding.Statement (.shlVx x) :=
  ⟨wf_all _, (maskXys_packXyn _ _ _ _).trans rfl⟩
theorem Encoding.sneVy (x y : Nibble) : Encoding.Statement (.sneVy x y) :=
  ⟨wf_all _, (mask_packXyn _ _ _ _).trans rfl⟩
theorem Encoding.ldI (nnn : Addr) : Encoding.Statement (.ldI nnn) := ⟨wf_all _, (mask_packNnn _ _).trans rfl⟩
theorem Encoding.jpV0 (nnn : Addr) : Encoding.Statement (.jpV0 nnn) := ⟨wf_all _, (mask_packNnn _ _).trans rfl⟩
theorem Encoding.rnd (x : Nibble) (kk : Byte) : Encoding.Statement (.rnd x kk) :=
  ⟨wf_all _, (mask_packXkk _ _ _).trans rfl⟩
theorem Encoding.drw (x y n : Nibble) : Encoding.Statement (.drw x y n) :=
  ⟨wf_all _, (mask_packXyn _ _ _ _).trans rfl⟩
theorem Encoding.skp (x : Nibble) : Encoding.Statement (.skp x) := ⟨wf_all _, (maskXs_packXkk _ _ _).trans rfl⟩
theorem Encoding.sknp (x : Nibble) : Encoding.Statement (.sknp x) := ⟨wf_all _, (maskXs_packXkk _ _ _).trans rfl⟩
theorem Encoding.ldVxDt (x : Nibble) : Encoding.Statement (.ldVxDt x) :=
  ⟨wf_all _, (maskXs_packXkk _ _ _).trans rfl⟩
theorem Encoding.ldVxK (x : Nibble) : Encoding.Statement (.ldVxK x) :=
  ⟨wf_all _, (maskXs_packXkk _ _ _).trans rfl⟩
theorem Encoding.ldDtVx (x : Nibble) : Encoding.Statement (.ldDtVx x) :=
  ⟨wf_all _, (maskXs_packXkk _ _ _).trans rfl⟩
theorem Encoding.ldStVx (x : Nibble) : Encoding.Statement (.ldStVx x) :=
  ⟨wf_all _, (maskXs_packXkk _ _ _).trans rfl⟩
theorem Encoding.addIVx (x : Nibble) : Encoding.Statement (.addIVx x) :=
  ⟨wf_all _, (maskXs_packXkk _ _ _).trans rfl⟩
theorem Encoding.ldFVx (x : Nibble) : Encoding.Statement (.ldFVx x) :=
  ⟨wf_all _, (maskXs_packXkk _ _ _).trans rfl⟩
theorem Encoding.ldBVx (x : Nibble) : Encoding.Statement (.ldBVx x) :=
  ⟨wf_all _, (maskXs_packXkk _ _ _).trans rfl⟩
theorem Encoding.storeRegs (x : Nibble) : Encoding.Statement (.storeRegs x) :=
  ⟨wf_all _, (maskXs_packXkk _ _ _).trans rfl⟩
theorem Encoding.loadRegs (x : Nibble) : Encoding.Statement (.loadRegs x) :=
  ⟨wf_all _, (maskXs_packXkk _ _ _).trans rfl⟩

end Sys2Proof.Laws
end

