-- ==== Sys2Proof/Tests/Slice0.lean ====
section
/-! SUPPORT. Tests on single steps, their expected results from spec/95_test_vectors.md (each names its row there), and for
every statement that has hypotheses a witness that meets them. -/

namespace Sys2Proof.Tests

open Sys2Proof Sys2Proof.Machine

/-! ### Helpers -/

/-- The state with the word at a, PC there, and a STEP with these inputs as the host's next operation. -/
def placed (a op : Word) (keys : BitVec 16) (rnd : Byte) (s : State) : State :=
  { s with pc := a, mem := s.mem.writeBytes a.toNat [highByte op, lowByte op], script := [.step keys rnd] }

/-- Registers set in turn. -/
def withRegs (s : State) : List (Nibble × Byte) → State
  | [] => s
  | (r, b) :: rest => withRegs (s.setV r b) rest

/-- The reset state with some registers set. -/
def regs (l : List (Nibble × Byte)) : State := withRegs State.reset l

/-- Whether one step answers a next state for which p holds. -/
def stepsTo (s : State) (p : State → Bool) : Bool :=
  match step s with
  | .next t => p t
  | _ => false

/-- Whether one instruction, PC already advanced, answers a next state for which p holds. -/
def execTo (i : Instr) (s : State) (p : State → Bool) : Bool :=
  match exec i s with
  | .next t => p t
  | _ => false

/-- The pixels of row y that are on, as the list of their columns. -/
def onIn (f : Framebuffer) (y : Nat) : List Nat := (List.range 64).filter fun x => f.pixel y x

/-- Every row of the screen but the listed ones is dark. -/
def darkBut (f : Framebuffer) (ys : List Nat) : Bool :=
  (List.range 32).all fun y => ys.contains y || (onIn f y).isEmpty

/-! ### What the well-formedness checks refuse -/

/-- A register number of 16 fits no field (00_scope R15); 15 does. -/
theorem test_fields_refuse_what_does_not_fit :
    OperandField.fits ⟨11, 8, 16⟩ = false ∧ OperandField.fits ⟨7, 0, 256⟩ = false ∧
    OperandField.fits ⟨11, 0, 4096⟩ = false ∧ OperandField.fits ⟨11, 8, 15⟩ = true := by decide

/-- Words with ignored bits set are not canonical (30_encoding R85); their plain forms are. -/
theorem test_canonical_refuses_ignored_bits :
    canonicalWord 0x01E0 = false ∧ canonicalWord 0x5121 = false ∧ canonicalWord 0x8126 = false ∧
    canonicalWord 0x812E = false ∧ canonicalWord 0x9125 = false ∧
    canonicalWord 0x00E0 = true ∧ canonicalWord 0x5120 = true ∧ canonicalWord 0x8106 = true ∧
    canonicalWord 0x9120 = true := by decide

/-- S9, TL3: 3585 bytes are too many, 3584 are not. -/
theorem test_image_of_3585_bytes_is_refused :
    imageFits (List.replicate 3585 0xAB) = false ∧ imageFits (List.replicate 3584 0xAB) = true := by
  rw [imageFits, imageFits, List.length_replicate, List.length_replicate]; decide

/-- Memory out of order, with a repeated address, with an address beyond 0xFFF, or listing a reset content is not in the
canonical form. -/
theorem test_memory_form_refuses :
    Memory.wf [(0x300, 1), (0x200, 1)] = false ∧ Memory.wf [(0x300, 1), (0x300, 2)] = false ∧
    Memory.wf [(0x1000, 1)] = false ∧ Memory.wf [(0x300, 0)] = false ∧ Memory.wf [(0x50, 0xF0)] = false ∧
    Memory.wf [(0x50, 0), (0x300, 1)] = true := by decide

/-! ### Decoding: a word of each instruction, written out bit by bit from 30_encoding R86 (section 2.1 of the vectors) -/

theorem test_decode_family_0 :
    decodeWord 0b0000000011100000 = some .cls ∧
    decodeWord 0b0000000011101110 = some .ret ∧
    decodeWord 0b0000000111100000 = some .cls ∧
    decodeWord 0b0000111111101110 = some .ret := by decide

theorem test_decode_jumps :
    decodeWord 0b0001101010111100 = some (.jp 0xABC) ∧
    decodeWord 0b0010101010111100 = some (.call 0xABC) ∧
    decodeWord 0b1011001011111111 = some (.jpV0 0x2FF) := by decide

theorem test_decode_compares :
    decodeWord 0b0011101000101111 = some (.seKk 0xA 0x2F) ∧
    decodeWord 0b0100101000101111 = some (.sneKk 0xA 0x2F) ∧
    decodeWord 0b0101000100100000 = some (.seVy 1 2) ∧
    decodeWord 0b0101000100100001 = some (.seVy 1 2) ∧
    decodeWord 0b1001000100100000 = some (.sneVy 1 2) ∧
    decodeWord 0b1001000100100101 = some (.sneVy 1 2) := by decide

theorem test_decode_immediates :
    decodeWord 0b0110101000101111 = some (.ldKk 0xA 0x2F) ∧
    decodeWord 0b0111101000101111 = some (.addKk 0xA 0x2F) ∧
    decodeWord 0b1100000100001111 = some (.rnd 1 0x0F) ∧
    decodeWord 0b1010000100100011 = some (.ldI 0x123) := by decide

theorem test_decode_family_8 :
    decodeWord 0b1000000100100000 = some (.ldVy 1 2) ∧
    decodeWord 0b1000000100100001 = some (.orVy 1 2) ∧
    decodeWord 0b1000000100100010 = some (.andVy 1 2) ∧
    decodeWord 0b1000000100100011 = some (.xorVy 1 2) ∧
    decodeWord 0b1000000100100100 = some (.addVy 1 2) ∧
    decodeWord 0b1000000100100101 = some (.subVy 1 2) ∧
    decodeWord 0b1000000100100110 = some (.shrVx 1) ∧
    decodeWord 0b1000000100100111 = some (.subnVy 1 2) ∧
    decodeWord 0b1000000100101110 = some (.shlVx 1) := by decide

theorem test_decode_draw_and_keys :
    decodeWord 0b1101000100100101 = some (.drw 1 2 5) ∧
    decodeWord 0b1110000110011110 = some (.skp 1) ∧
    decodeWord 0b1110000110100001 = some (.sknp 1) := by decide

theorem test_decode_family_F :
    decodeWord 0b1111000100000111 = some (.ldVxDt 1) ∧
    decodeWord 0b1111000100001010 = some (.ldVxK 1) ∧
    decodeWord 0b1111000100010101 = some (.ldDtVx 1) ∧
    decodeWord 0b1111000100011000 = some (.ldStVx 1) ∧
    decodeWord 0b1111000100011110 = some (.addIVx 1) ∧
    decodeWord 0b1111000100101001 = some (.ldFVx 1) ∧
    decodeWord 0b1111000100110011 = some (.ldBVx 1) ∧
    decodeWord 0b1111000101010101 = some (.storeRegs 1) ∧
    decodeWord 0b1111000101100101 = some (.loadRegs 1) := by decide

/-- Section 2.1: unknown words are rejected by name, with the whole word. -/
theorem test_unknown_words :
    [0x0000, 0x00E1, 0x00FD, 0x0123, 0x8128, 0x8129, 0x812A, 0x812B, 0x812C, 0x812D, 0x812F, 0xE19F, 0xE000, 0xE10E, 0xF000,
      0xF1FF, 0xF175, 0xF130, 0xFFFF].all (fun op : Word => decodeWord op == none) = true ∧
    decode [0x81, 0x28, 0x55] = .unknownOpcode 0x8128 ∧ decode [0x12] = .truncated := by decide

/-- The first byte is the high one, and the bytes after the instruction stay (20_memory R51; TL6: `12 34` is JP 234). -/
theorem test_decode_is_big_endian : decode [0x12, 0x34, 0x99] = .instr (.jp 0x234) [0x99] := by decide

/-- The table's bit 0 is the least significant bit of the word. -/
theorem test_table_word : decodeTableWord 16 0x6A2F = some (.ldKk 0xA 0x2F) ∧ decodeTableWord 16 0x0000 = none := by decide

/-- The encoder gives the words of the listings of part 3. -/
theorem test_encode :
    encode (.addVy 0 1) = 0x8014 ∧ encode (.seKk 1 0) = 0x3100 ∧ encode (.jp 0x20C) = 0x120C ∧
    encode (.drw 0 1 2) = 0xD012 ∧ encode (.loadRegs 2) = 0xF265 ∧ encode .ret = 0x00EE ∧
    encodeBytes (.ldI 0x300) = [0xA3, 0x00] := by decide

/-- Mnemonics as 30_encoding R92 spells them. -/
theorem test_asm :
    (Instr.drw 0 1 2).asm = "DRW V0,V1,0x2".toList ∧ (Instr.loadRegs 0xA).asm = "LD VA,[I]".toList ∧
    (Instr.jpV0 0x300).asm = "JP V0,0x300".toList := by decide

/-! ### The STEP cycle (section 2.2) -/

/-- TF1. -/
theorem test_fetch_is_big_endian : stepsTo (placed 0x200 0x612A 0 0 State.reset) (fun t =>
    t.getV 1 == 0x2A && t.pc == 0x202 && t.result == .ok) = true := by decide

/-- TF2. -/
theorem test_odd_pc_is_legal : stepsTo (placed 0x201 0x612A 0 0 State.reset) (fun t =>
    t.getV 1 == 0x2A && t.pc == 0x203 && t.result == .ok) = true := by decide

/-- TF3. -/
theorem test_last_word_runs : stepsTo (placed 0xFFE 0x6000 0 0 State.reset) (fun t =>
    t.pc == 0x1000 && t.result == .ok) = true := by decide

/-- TF4: at 0xFFF the second byte does not exist. -/
theorem test_fetch_past_the_end : stepsTo { State.reset with pc := 0xFFF, script := [.step 0 0] } (fun t =>
    t == { State.reset with pc := 0xFFF, result := .fault .addressOutOfRange }) = true := by decide

/-- TF7: the reset state without a program. -/
theorem test_reset_runs_into_unknown : stepsTo { State.reset with script := [.step 0 0] } (fun t =>
    t == { State.reset with pc := 0x202, result := .fault (.unknownOpcode 0) }) = true := by decide

/-- TF8. -/
theorem test_step_does_not_tick : stepsTo (placed 0x200 0x6000 0 0 { State.reset with dt := 5, st := 5 }) (fun t =>
    t.dt == 5 && t.st == 5) = true := by decide

/-- The very next step of `withFetchWord` runs the word. -/
theorem test_withFetchWord : stepsTo (State.reset.withFetchWord 16 0x6A2F) (fun t =>
    t.getV 0xA == 0x2F && t.pc == 0x202) = true := by decide

/-- Where PC is too high to fetch at, the word is placed at 0x200. -/
theorem test_withFetchWord_high_pc : stepsTo (State.withFetchWord { State.reset with pc := 0x1000 } 16 0x6A2F) (fun t =>
    t.getV 0xA == 0x2F && t.pc == 0x202) = true := by decide

/-! ### Control transfer (section 2.3) -/

/-- TJ1. -/
theorem test_jp : stepsTo (placed 0x20A 0x1204 0 0 State.reset) (fun t =>
    t.pc == 0x204) = true := by decide

/-- TF9. -/
theorem test_jp_to_itself : stepsTo (placed 0x200 0x1200 0 0 State.reset) (fun t =>
    t.pc == 0x200 && t.result == .ok) = true := by decide

/-- TJ3. -/
theorem test_call : stepsTo (placed 0x300 0x2ABC 0 0 { State.reset with sp := 15 }) (fun t =>
    t.stack[15] == 0x302 && t.sp == 16 && t.pc == 0xABC) = true := by decide

/-- TJ4. -/
theorem test_call_overflow : stepsTo (placed 0x300 0x2ABC 0 0 { State.reset with sp := 16 }) (fun t =>
    t.pc == 0x302 && t.sp == 16 && t.stack == State.reset.stack && t.result == .fault .stackOverflow) = true := by decide

/-- TJ6. -/
theorem test_ret : stepsTo (placed 0x212 0x00EE 0 0 { State.reset with sp := 1, stack := State.reset.stack.set 0 0x206 }) (fun t =>
    t.sp == 0 && t.pc == 0x206 && t.stack[0] == 0x206) = true := by decide

/-- TJ8. -/
theorem test_ret_underflow : stepsTo (placed 0x200 0x00EE 0 0 State.reset) (fun t =>
    t.pc == 0x202 && t.sp == 0 && t.result == .fault .stackUnderflow) = true := by decide

/-- TJ9. -/
theorem test_seKk_taken : stepsTo (placed 0x208 0x3100 0 0 State.reset) (fun t =>
    t.pc == 0x20C) = true := by decide

/-- TJ10. -/
theorem test_seKk_not_taken : stepsTo (placed 0x208 0x3100 0 0 (regs [(1, 1)])) (fun t =>
    t.pc == 0x20A) = true := by decide

/-- TJ11. -/
theorem test_sneKk_taken : stepsTo (placed 0x300 0x4211 0 0 (regs [(2, 0x10)])) (fun t =>
    t.pc == 0x304) = true := by decide

/-- TJ12. -/
theorem test_sneKk_not_taken : stepsTo (placed 0x300 0x4210 0 0 (regs [(2, 0x10)])) (fun t =>
    t.pc == 0x302) = true := by decide

/-- TJ13. -/
theorem test_seVy_taken : stepsTo (placed 0x220 0x5340 0 0 (regs [(3, 0x7F), (4, 0x7F)])) (fun t =>
    t.pc == 0x224) = true := by decide

/-- TJ15. -/
theorem test_seVy_ignores_low_nibble : stepsTo (placed 0x200 0x5121 0 0 (regs [(1, 7), (2, 7)])) (fun t =>
    t.pc == 0x204) = true := by decide

/-- TJ16. -/
theorem test_sneVy_taken : stepsTo (placed 0x220 0x9340 0 0 (regs [(3, 1), (4, 2)])) (fun t =>
    t.pc == 0x224) = true := by decide

/-- TJ18. -/
theorem test_sneVy_same_register : stepsTo (placed 0x200 0x9110 0 0 (regs [(1, 7)])) (fun t =>
    t.pc == 0x202) = true := by decide

/-- TJ22. -/
theorem test_jpV0 : stepsTo (placed 0x200 0xB2FF 0 0 (regs [(0, 1), (2, 0x80)])) (fun t =>
    t.pc == 0x300) = true := by decide

/-- TJ21. -/
theorem test_jpV0_is_not_reduced : stepsTo (placed 0x200 0xBFFF 0 0 (regs [(0, 0xFF)])) (fun t =>
    t.pc == 0x10FE) = true := by decide

/-! ### ALU (section 2.4) -/

/-- TA1. -/
theorem test_ldKk : stepsTo (placed 0x200 0x612A 0 0 (regs [(15, 1)])) (fun t =>
    t.getV 1 == 0x2A && t.getV 15 == 1) = true := by decide

/-- TA2. -/
theorem test_addKk : stepsTo (placed 0x200 0x71FF 0 0 (regs [(1, 5), (15, 1)])) (fun t =>
    t.getV 1 == 4 && t.getV 15 == 1) = true := by decide

/-- TA53. -/
theorem test_addKk_on_VF : stepsTo (placed 0x200 0x7F01 0 0 (regs [(15, 0xFF)])) (fun t =>
    t.getV 15 == 0) = true := by decide

/-- TA4. -/
theorem test_ldVy : stepsTo (placed 0x200 0x8120 0 0 (regs [(2, 0x33)])) (fun t =>
    t.getV 1 == 0x33 && t.getV 2 == 0x33) = true := by decide

/-- TA5. -/
theorem test_orVy : stepsTo (placed 0x200 0x8121 0 0 (regs [(1, 0x0F), (2, 0xF0), (15, 1)])) (fun t =>
    t.getV 1 == 0xFF && t.getV 15 == 1) = true := by decide

/-- TA6. -/
theorem test_andVy : stepsTo (placed 0x200 0x8122 0 0 (regs [(1, 0x3C), (2, 0x0F), (15, 1)])) (fun t =>
    t.getV 1 == 0x0C && t.getV 15 == 1) = true := by decide

/-- TA7. -/
theorem test_xorVy : stepsTo (placed 0x200 0x8123 0 0 (regs [(1, 0xFF), (2, 0x0F), (15, 1)])) (fun t =>
    t.getV 1 == 0xF0 && t.getV 15 == 1) = true := by decide

/-- TA8. -/
theorem test_xorVy_same_register : stepsTo (placed 0x200 0x8113 0 0 (regs [(1, 0xAB)])) (fun t =>
    t.getV 1 == 0) = true := by decide

/-- TA9, S2. -/
theorem test_addVy_carries : stepsTo (placed 0x200 0x8124 0 0 (regs [(1, 0xC8), (2, 0x64)])) (fun t =>
    t.getV 1 == 0x2C && t.getV 15 == 1 && t.getV 2 == 0x64) = true := by decide

/-- TA40. -/
theorem test_addVy_on_VF : stepsTo (placed 0x200 0x8F14 0 0 (regs [(15, 0xC8), (1, 0x64)])) (fun t =>
    t.getV 15 == 0x2C && t.getV 1 == 0x64) = true := by decide

/-- TA15, S3. -/
theorem test_subVy_borrows : stepsTo (placed 0x200 0x8125 0 0 (regs [(1, 5), (2, 10)])) (fun t =>
    t.getV 1 == 0xFB && t.getV 15 == 0) = true := by decide

/-- TA44. -/
theorem test_subVy_VF_source : stepsTo (placed 0x200 0x81F5 0 0 (regs [(1, 5), (15, 3)])) (fun t =>
    t.getV 15 == 1 && t.getV 1 == 4) = true := by decide

/-- TA25, S4. -/
theorem test_shrVx : stepsTo (placed 0x200 0x8126 0 0 (regs [(1, 5), (2, 0x33)])) (fun t =>
    t.getV 1 == 2 && t.getV 15 == 1 && t.getV 2 == 0x33) = true := by decide

/-- TA29. -/
theorem test_shrVx_is_logical : stepsTo (placed 0x200 0x8126 0 0 (regs [(1, 0x80)])) (fun t =>
    t.getV 1 == 0x40 && t.getV 15 == 0) = true := by decide

/-- TA22. -/
theorem test_subnVy : stepsTo (placed 0x200 0x8127 0 0 (regs [(1, 10), (2, 5)])) (fun t =>
    t.getV 1 == 0xFB && t.getV 15 == 0) = true := by decide

/-- TA48. -/
theorem test_subnVy_VF_source : stepsTo (placed 0x200 0x81F7 0 0 (regs [(1, 4), (15, 9)])) (fun t =>
    t.getV 15 == 1 && t.getV 1 == 0xFD) = true := by decide

/-- TA30. -/
theorem test_shlVx : stepsTo (placed 0x200 0x812E 0 0 (regs [(1, 0x81), (2, 0x33)])) (fun t =>
    t.getV 1 == 2 && t.getV 15 == 1 && t.getV 2 == 0x33) = true := by decide

/-- TA51. -/
theorem test_shlVx_on_VF : stepsTo (placed 0x200 0x8F0E 0 0 (regs [(15, 0xFF)])) (fun t =>
    t.getV 15 == 2) = true := by decide

/-- TA35. -/
theorem test_rnd : stepsTo (placed 0x200 0xC10F 0 0xA7 (regs [(15, 1)])) (fun t =>
    t.getV 1 == 7 && t.getV 15 == 1) = true := by decide

/-! ### Index register and memory (section 2.5) -/

/-- TM1. -/
theorem test_ldI : stepsTo (placed 0x200 0xA300 0 0 State.reset) (fun t =>
    t.i == 0x300) = true := by decide

/-- TM3. -/
theorem test_addIVx_has_no_flag : stepsTo (placed 0x200 0xF11E 0 0 { regs [(1, 1)] with i := 0xFFF }) (fun t =>
    t.i == 0x1000 && t.getV 15 == 0 && t.result == .ok) = true := by decide

/-- TM5. -/
theorem test_addIVx_wraps : stepsTo (placed 0x200 0xF11E 0 0 { regs [(1, 0xFF)] with i := 0xFF80 }) (fun t =>
    t.i == 0x7F) = true := by decide

/-- TM8. -/
theorem test_ldFVx : stepsTo (placed 0x200 0xF129 0 0 (regs [(1, 15)])) (fun t =>
    t.i == 0x9B) = true := by decide

/-- TM10. -/
theorem test_ldFVx_whole_byte : stepsTo (placed 0x200 0xF129 0 0 (regs [(1, 0xFF)])) (fun t =>
    t.i == 0x54B) = true := by decide

/-- TM11. -/
theorem test_ldBVx : stepsTo (placed 0x200 0xF133 0 0 { regs [(1, 0xEA)] with i := 0x300 }) (fun t =>
    t.mem.readBytes 0x300 4 == [2, 3, 4, 0] && t.i == 0x300) = true := by decide

/-- TM14. -/
theorem test_ldBVx_out_of_range : stepsTo (placed 0x200 0xF133 0 0 { regs [(1, 0xFF)] with i := 0xFFE }) (fun t =>
    t.mem.readBytes 0xFFE 2 == [0, 0] && t.pc == 0x202 && t.result == .fault .addressOutOfRange) = true := by decide

/-- TM16. -/
theorem test_storeRegs : stepsTo (placed 0x200 0xF255 0 0 { regs [(0, 1), (1, 2), (2, 3), (3, 4)] with i := 0x400 }) (fun t =>
    t.mem.readBytes 0x400 4 == [1, 2, 3, 0] && t.i == 0x400) = true := by decide

/-- TM20. -/
theorem test_storeRegs_out_of_range : stepsTo (placed 0x200 0xF155 0 0 { regs [(0, 0xAA), (1, 0xBB)] with i := 0xFFF }) (fun t =>
    t.mem.read 0xFFF == 0 && t.result == .fault .addressOutOfRange) = true := by decide

/-- TM23. -/
theorem test_loadRegs : stepsTo (placed 0x200 0xF265 0 0 { regs [(3, 0x99)] with i := 0x50 }) (fun t =>
    t.getV 0 == 0xF0 && t.getV 1 == 0x90 && t.getV 2 == 0x90 && t.getV 3 == 0x99 && t.i == 0x50) = true := by decide

/-- TM25. -/
theorem test_loadRegs_out_of_range : stepsTo (placed 0x200 0xF165 0 0 { regs [(0, 1), (1, 2)] with i := 0xFFF }) (fun t =>
    t.getV 0 == 1 && t.getV 1 == 2 && t.result == .fault .addressOutOfRange) = true := by decide

/-! ### Display (section 2.6) -/

/-- TD1. -/
theorem test_cls : stepsTo (placed 0x200 0x00E0 0 0 { regs [(15, 1)] with fb := (State.reset.fb.toggle 0 0).toggle 31 63 }) (fun t =>
    darkBut t.fb [] && t.getV 15 == 1) = true := by decide

/-- TD5. -/
theorem test_drw_wraps_its_origin_and_clips : stepsTo (placed 0x200 0xD011 0 0 { regs [(0, 0x7C), (1, 0x20)] with i := 0x300, mem := [(0x300, 0xFF)] }) (fun t =>
    onIn t.fb 0 == [60, 61, 62, 63] && darkBut t.fb [0] && t.getV 15 == 0) = true := by decide

/-- TD8. -/
theorem test_drw_collides : stepsTo (placed 0x200 0xD011 0 0 { State.reset with i := 0x300, mem := [(0x300, 0xC0)], fb := State.reset.fb.toggle 0 1 }) (fun t =>
    onIn t.fb 0 == [0] && darkBut t.fb [0] && t.getV 15 == 1) = true := by decide

/-! ### Keys and timers (section 2.7) -/

/-- TK5. -/
theorem test_skp : stepsTo (placed 0x240 0xE49E 0x0080 0 (regs [(4, 0x17)])) (fun t =>
    t.pc == 0x244) = true := by decide

/-- TK2. -/
theorem test_skp_not_pressed : stepsTo (placed 0x240 0xE49E 0xFF7F 0 (regs [(4, 7)])) (fun t =>
    t.pc == 0x242) = true := by decide

/-- TK6. -/
theorem test_sknp : stepsTo (placed 0x240 0xE4A1 0x0008 0 (regs [(4, 0xF3)])) (fun t =>
    t.pc == 0x242) = true := by decide

/-- TK4. -/
theorem test_sknp_not_pressed : stepsTo (placed 0x240 0xE4A1 0 0 (regs [(4, 7)])) (fun t =>
    t.pc == 0x244) = true := by decide

/-- TK7. -/
theorem test_ldVxK_waits : stepsTo (placed 0x230 0xF30A 0 0 (regs [(3, 0x55)])) (fun t =>
    t.pc == 0x230 && t.getV 3 == 0x55 && t.result == .awaitingInput) = true := by decide

/-- TK8. -/
theorem test_ldVxK_takes_the_least_key : stepsTo (placed 0x230 0xF30A 0x1200 0 (regs [(3, 0x55)])) (fun t =>
    t.pc == 0x232 && t.getV 3 == 9 && t.result == .ok) = true := by decide

/-- TK12. -/
theorem test_ldVxDt : stepsTo (placed 0x200 0xF507 0 0 { State.reset with dt := 0x3C }) (fun t =>
    t.getV 5 == 0x3C && t.dt == 0x3C) = true := by decide

/-- TK13. -/
theorem test_ldDtVx : stepsTo (placed 0x200 0xF015 0 0 { regs [(0, 0x3C)] with dt := 9 }) (fun t =>
    t.dt == 0x3C && t.st == 0) = true := by decide

/-- TK14. -/
theorem test_ldStVx : stepsTo (placed 0x200 0xF118 0 0 (regs [(1, 5)])) (fun t =>
    t.st == 5 && t.soundActive && t.dt == 0) = true := by decide

/-- TK15. -/
theorem test_ldStVx_silences : stepsTo (placed 0x200 0xF118 0 0 { State.reset with st := 9 }) (fun t =>
    t.st == 0 && !t.soundActive) = true := by decide

/-! ### RESET, LOAD and TICK (sections 2.7 and 2.8) -/

/-- TICK: DT = FF, ST = 01. -/
theorem test_tick : stepsTo { State.reset with dt := 0xFF, st := 1, script := [.tick] } (fun t =>
    t == { State.reset with dt := 0xFE }) = true := by decide

/-- TICK at zero. -/
theorem test_tick_stays_at_zero : stepsTo { State.reset with script := [.tick] } (fun t => t == State.reset) = true := by
  decide

/-- TL1: RESET from a used state. -/
theorem test_reset : stepsTo
    { regs [(3, 7)] with
      pc := 0x300, sp := 5, dt := 9, fb := State.reset.fb.toggle 1 1, mem := [(0x50, 0), (0x200, 0xAB)]
      script := [.reset] } (fun t => t == State.reset && t.mem.read 0x50 == 0xF0) = true := by decide

/-- TL5, TL6: LOAD resets and copies verbatim. -/
theorem test_load : stepsTo { regs [(3, 7)] with pc := 0x300, mem := [(0x202, 0xAB)], script := [.load [0x12, 0x34]] }
    (fun t => t == { State.reset with mem := [(0x200, 0x12), (0x201, 0x34)] }) = true := by decide

/-- TL4: LOAD of nothing is a RESET. -/
theorem test_load_of_nothing : stepsTo { regs [(3, 7)] with pc := 0x300, mem := [(0x200, 0xAB)], script := [.load []] }
    (fun t => t == State.reset) = true := by decide

/-- The result codes of 60_exceptions R240. -/
theorem test_result_codes : [OpResult.ok, .awaitingInput, .fault .romTooLarge, .fault .addressOutOfRange,
    .fault (.unknownOpcode 0xFFFF), .fault .stackOverflow, .fault .stackUnderflow].map OpResult.code =
    [0, 1, 2, 3, 4, 5, 6] := by decide

/-! ### Witnesses: each meets every hypothesis of the statement it names, at the edge of the range where there is one -/

theorem witness_EncodeOfDecodeIsTheCanonicalWord :
    decodeWord 0x8FE5 = some (.subVy 0xF 0xE) ∧ canonicalWord 0x8FE5 = true := by decide

theorem witness_DecodeAgreesWithMaskAndMatch :
    decodeWord 0x0FE0 = some .cls ∧ (0x0FE0 : Word) &&& (maskAndMatch .cls).1 = (maskAndMatch .cls).2 := by decide

theorem witness_StepRunsTheDecodedInstruction :
    let s := placed 0xFFE 0x6A2F 0x8000 0xFF State.reset
    s.currentOp = .step 0x8000 0xFF ∧ s.pc.toNat + 1 ≤ 0xFFF ∧
    decode [s.mem.read s.pc.toNat, s.mem.read (s.pc.toNat + 1)] = .instr (.ldKk 0xA 0x2F) [] := by decide

theorem witness_FetchIsBigEndian : (placed 0xFFE 0x612A 0 0 State.reset).pc.toNat + 1 ≤ 0xFFF := by decide

theorem witness_FetchBeyondMemoryFaultsAndChangesNothing :
    State.currentOp { State.reset with pc := 0xFFF, script := [.step 0 0] } = .step 0 0 ∧
    0xFFF ≤ (0xFFF : Word).toNat ∧ (0xFFE : Word).toNat ≤ 0xFFE := by decide

theorem witness_UnknownWordIsReportedWithPcAdvanced :
    let s := placed 0xFFE 0xFFFF 0 0 State.reset
    s.currentOp = .step 0 0 ∧ s.fetch = some 0xFFFF ∧ decodeWord 0xFFFF = none := by decide

theorem witness_EveryScheduleOfHostOperationsIsAdmitted : State.reset.script = [] := by decide

theorem witness_CallPushesTheReturnAddress :
    (State.sp { State.reset with sp := 15 }).val < 16 ∧ State.reset.sp.val < 16 := by decide

theorem witness_CallOnAFullStackFaults : (State.sp { State.reset with sp := 16 }).val = 16 := by decide

theorem witness_ReturnPopsIntoPc :
    0 < (State.sp { State.reset with sp := 1 }).val ∧ 0 < (State.sp { State.reset with sp := 16 }).val := by decide

theorem witness_ReturnOnAnEmptyStackFaults : State.reset.sp.val = 0 := by decide

theorem witness_ReturnUndoesCall : (State.sp { State.reset with sp := 15 }).val < 16 := by decide

theorem witness_FlagConvention :
    (0 : Nibble) ≠ 0xF ∧ (0xE : Nibble) ≠ 0xF ∧ (State.reset.getV 0).toNat = (State.reset.getV 0xE).toNat := by decide

theorem witness_VfAsOperandTable : (0 : Nibble) ≠ 0xF ∧ (0xE : Nibble) ≠ 0xF := by decide

theorem witness_DecimalDigitsAreStored :
    (State.i { State.reset with i := 0xFFD }).toNat + 2 ≤ 0xFFF ∧
    0xFFF < (State.i { State.reset with i := 0xFFE }).toNat + 2 := by decide

theorem witness_RegisterBlockIsStored :
    (State.i { State.reset with i := 0xFF0 }).toNat + (0xF : Nibble).toNat ≤ 0xFFF ∧
    0xFFF < (State.i { State.reset with i := 0xFF1 }).toNat + (0xF : Nibble).toNat ∧
    0xFFF < (State.i { State.reset with i := 0x1000 }).toNat + (0 : Nibble).toNat := by decide

theorem witness_RegisterBlockIsLoaded :
    (State.i { State.reset with i := 0xFFF }).toNat + (0 : Nibble).toNat ≤ 0xFFF ∧
    0xFFF < (State.i { State.reset with i := 0xFFF }).toNat + (1 : Nibble).toNat := by decide

theorem witness_BlockLoadRestoresBlockStore :
    (State.i { State.reset with i := 0xFF0 }).toNat + (0xF : Nibble).toNat ≤ 0xFFF := by decide

/-- A store of one byte at the top of memory with the fetch whose second byte alone is new, a block of sixteen with the fetch
one below it, and the highest digits. -/
theorem witness_StoreIsSeenByTheNextFetch :
    (State.i { State.reset with i := 0xFFF }).toNat + (0 : Nibble).toNat ≤ 0xFFF ∧ (0xFFE : Word).toNat ≤ 0xFFE ∧
    (State.i { State.reset with i := 0xFF0 }).toNat + (0xF : Nibble).toNat ≤ 0xFFF ∧ (0xFEF : Word).toNat ≤ 0xFFE ∧
    (State.i { State.reset with i := 0xFFD }).toNat + 2 ≤ 0xFFF := by decide

theorem witness_DrawFlipsExactlyTheSpritePixels :
    ((0 : Nibble).toNat = 0 ∨ (State.i { State.reset with i := 0xFFFF }).toNat + (0 : Nibble).toNat - 1 ≤ 0xFFF) ∧
    ((0xF : Nibble).toNat = 0 ∨ (State.i { State.reset with i := 0xFF1 }).toNat + (0xF : Nibble).toNat - 1 ≤ 0xFFF) := by
  decide

/-- A sprite byte 80 at 0x300 and the pixel (0, 0) on. -/
def onePixel : State := { State.reset with i := 0x300, mem := [(0x300, 0x80)], fb := State.reset.fb.toggle 0 0 }

theorem onePixel_spriteOn : onePixel.spriteOn 0 0 1 0 0 :=
  ⟨0, 0, by decide, by decide, by decide, by decide, by decide⟩

theorem witness_DrawReportsCollisionInVf :
    ((1 : Nibble).toNat = 0 ∨ onePixel.i.toNat + (1 : Nibble).toNat - 1 ≤ 0xFFF) ∧
    (∃ py px, py < 32 ∧ px < 64 ∧ onePixel.spriteOn 0 0 1 py px ∧ onePixel.fb.pixel py px = true) ∧
    ¬(∃ py px, py < 32 ∧ px < 64 ∧ State.reset.spriteOn 0 0 0 py px ∧ State.reset.fb.pixel py px = true) := by
  refine ⟨by decide, ⟨0, 0, by decide, by decide, onePixel_spriteOn, by decide⟩, ?_⟩
  rintro ⟨_, _, _, _, ⟨r, _, h, _⟩, _⟩
  exact absurd h (Nat.not_lt_zero r)

theorem witness_DrawOutOfRangeFaults :
    1 ≤ (2 : Nibble).toNat ∧ 0xFFF < (State.i { State.reset with i := 0xFFF }).toNat + (2 : Nibble).toNat - 1 := by decide

theorem witness_DrawingTwiceRestoresTheScreen :
    (0 : Nibble) ≠ 0xF ∧ ((1 : Nibble).toNat = 0 ∨ onePixel.i.toNat + (1 : Nibble).toNat - 1 ≤ 0xFFF) ∧
    (∃ py px, py < 32 ∧ px < 64 ∧ State.spriteOn { onePixel with fb := Framebuffer.clear } 0 0 1 py px ∧
      Framebuffer.clear.pixel py px = false) :=
  ⟨by decide, by decide, 0, 0, by decide, by decide, onePixel_spriteOn, by decide⟩

theorem witness_KeyWaitLeavesTheStateAsItWas :
    let s := placed 0xFFE 0xF30A 0 0 State.reset
    s.currentOp = .step 0 0 ∧ s.fetch = some 0xF30A ∧ decodeWord 0xF30A = some (.ldVxK 3) := by decide

theorem witness_KeyPressIsCaptured : State.keys { State.reset with keys := 0x8000 } ≠ 0 := by decide

theorem witness_TickDecrementsBothTimers :
    State.currentOp { State.reset with dt := 0, st := 1, script := [.tick] } = .tick ∧
    State.script { State.reset with dt := 2, script := [.tick, .tick, .tick, .reset] } =
      List.replicate 3 .tick ++ [.reset] := by decide

theorem witness_ResetWorksFromAnyState : State.currentOp { onePixel with script := [.reset] } = .reset := by decide

theorem witness_LoadCopiesTheImage :
    State.currentOp { onePixel with script := [.load (List.replicate 3584 0xAB)] } = .load (List.replicate 3584 0xAB) ∧
    (List.replicate 3584 (0xAB : Byte)).length ≤ 3584 ∧ ([] : List Byte).length ≤ 3584 := by
  rw [List.length_replicate]
  exact ⟨rfl, Nat.le_refl _, Nat.zero_le _⟩

theorem witness_LoadRejectsALongImage :
    State.currentOp { onePixel with script := [.load (List.replicate 3585 0xAB)] } = .load (List.replicate 3585 0xAB) ∧
    3584 < (List.replicate 3585 (0xAB : Byte)).length := by
  rw [List.length_replicate]
  exact ⟨rfl, Nat.lt_succ_self _⟩

/-- A state at the edge of the invariant: PC 0x10FE and a stack entry 0x1000. -/
def edge : State := { State.reset with pc := 0x10FE, sp := 1, stack := State.reset.stack.set 0 0x1000, script := [.step 0 0] }

theorem witness_EveryStepKeepsTheInvariant : edge.Inv ∧ ∃ t, step edge = .next t := by
  refine ⟨⟨Nat.le_refl _, ?_, rfl⟩, _, rfl⟩
  show ∀ (k : Nat) (h : k < 16), k < 1 → (edge.stack[k]'h).toNat ≤ 0x1000
  intro k h h1
  obtain rfl : k = 0 := by omega
  exact Nat.le_refl 0x1000

/-- `JP` is named for no part but PC and `LD V1,02` for no part but V1, so together they meet the premise of every clause. -/
theorem witness_OnlyTheNamedInstructionsWriteEachPart :
    (∃ t, exec (.jp 0xFFF) State.reset = .next t) ∧ (∃ t, exec (.ldKk 1 2) State.reset = .next t) := ⟨⟨_, rfl⟩, ⟨_, rfl⟩⟩

/-- One instruction of each shape the statement tells apart, its destination no VF, DRW in range. -/
theorem witness_OnlyFlagWritersTouchVf :
    (∃ t, exec (.addVy 0xE 0xF) State.reset = .next t) ∧
    (∃ t, exec (.drw 0 0 0) State.reset = .next t ∧ t.result = .ok) ∧
    (∃ t, exec (.loadRegs 0xE) State.reset = .next t) ∧ (∃ t, exec (.ldI 0) State.reset = .next t) ∧
    (0xE : Nibble) ≠ 0xF := ⟨⟨_, rfl⟩, ⟨_, rfl, rfl⟩, ⟨_, rfl⟩, ⟨_, rfl⟩, by decide⟩

/-- Both ends of CALL, RET and `LD Vx,K`, and an instruction that leaves PC advanced. -/
theorem witness_PcAfterEachInstruction :
    (∃ t, exec (.call 0xFFF) { State.reset with sp := 16 } = .next t) ∧
    (∃ t, exec (.call 0xFFF) { State.reset with sp := 15 } = .next t) ∧
    (∃ t, exec .ret State.reset = .next t) ∧ (∃ t, exec .ret { State.reset with sp := 16 } = .next t) ∧
    (∃ t, exec (.ldVxK 0) State.reset = .next t) ∧ (∃ t, exec (.ldVxK 0) { State.reset with keys := 0x8000 } = .next t) ∧
    (∃ t, exec (.jpV0 0xFFF) (regs [(0, 0xFF)]) = .next t) ∧ (∃ t, exec .cls State.reset = .next t) :=
  ⟨⟨_, rfl⟩, ⟨_, rfl⟩, ⟨_, rfl⟩, ⟨_, rfl⟩, ⟨_, rfl⟩, ⟨_, rfl⟩, ⟨_, rfl⟩, ⟨_, rfl⟩⟩

/-- `SKP` meets the premise of the random byte's clause, `RND` that of the keys' clause. -/
theorem witness_InputsAreReadOnlyByTheirInstructions :
    (∃ t, exec (.skp 0) State.reset = .next t) ∧ (∃ t, exec (.rnd 0xF 0xFF) State.reset = .next t) := ⟨⟨_, rfl⟩, ⟨_, rfl⟩⟩

/-- Two states that differ in a slot at SP, and a step from the first. -/
theorem witness_DeadStackSlotsCannotBeObserved :
    State.sameButDeadSlots { State.reset with sp := 1, script := [.tick] }
      { State.reset with sp := 1, stack := State.reset.stack.set 1 0x999, script := [.tick] } ∧
    ∃ s', step { State.reset with sp := 1, script := [.tick] } = .next s' := by
  refine ⟨⟨rfl, ?_⟩, _, rfl⟩
  show ∀ (k : Nat) (h : k < 16), k < 1 → State.reset.stack[k]'h = (State.reset.stack.set 1 0x999)[k]'h
  intro k h h1
  obtain rfl : k = 0 := by omega
  rfl

/-- Every instruction that can fault, faulting. -/
theorem witness_FaultsChangeNothingAndComeOnlyFromTheNamed :
    (∃ t, exec (.call 0) { State.reset with sp := 16 } = .next t ∧ t.result = .fault .stackOverflow) ∧
    (∃ t, exec .ret State.reset = .next t ∧ t.result = .fault .stackUnderflow) ∧
    (∃ t, exec (.drw 0 1 2) { State.reset with i := 0xFFF } = .next t ∧ t.result = .fault .addressOutOfRange) ∧
    (∃ t, exec (.ldBVx 0) { State.reset with i := 0xFFE } = .next t ∧ t.result = .fault .addressOutOfRange) ∧
    (∃ t, exec (.storeRegs 1) { State.reset with i := 0xFFF } = .next t ∧ t.result = .fault .addressOutOfRange) ∧
    (∃ t, exec (.loadRegs 1) { State.reset with i := 0xFFF } = .next t ∧ t.result = .fault .addressOutOfRange) :=
  ⟨⟨_, rfl, rfl⟩, ⟨_, rfl, rfl⟩, ⟨_, rfl, rfl⟩, ⟨_, rfl, rfl⟩, ⟨_, rfl, rfl⟩, ⟨_, rfl, rfl⟩⟩

theorem witness_SelfJumpIsAFixedPoint :
    let s := placed 0xFFE 0x1FFE 0 0 State.reset
    s.currentOp = .step 0 0 ∧ s.pc = (0xFFE : Addr).setWidth 16 ∧ s.fetch = some (encode (.jp 0xFFE)) := by decide


end Sys2Proof.Tests
end

namespace Sys2Proof.Machine

/-! ### The parts of the state each instruction writes (spec/10_state.md R20 to R31) -/

/-- The parts of the state an instruction may write, `result` apart (10_state R20, R41). -/
def writtenParts : Instr → List Part
  | .cls => [.screen]
  | .ret | .call _ => [.pc, .stack]
  | .jp _ | .jpV0 _ | .seKk _ _ | .sneKk _ _ | .seVy _ _ | .sneVy _ _ | .skp _ | .sknp _ => [.pc]
  | .ldKk _ _ | .addKk _ _ | .ldVy _ _ | .orVy _ _ | .andVy _ _ | .xorVy _ _ | .addVy _ _ | .subVy _ _ | .shrVx _
  | .subnVy _ _ | .shlVx _ | .rnd _ _ | .ldVxDt _ | .loadRegs _ => [.regs]
  | .ldI _ | .addIVx _ | .ldFVx _ => [.index]
  | .drw _ _ _ => [.regs, .screen]
  | .ldVxK _ => [.regs, .pc]
  | .ldDtVx _ => [.delay]
  | .ldStVx _ => [.sound]
  | .ldBVx _ | .storeRegs _ => [.mem]

/-- The registers an instruction may write: its destination, VF for the flag writers, V0 to Vx for `LD Vx,[I]`
(10_state R21, R22). -/
def writesReg : Instr → Nibble → Prop
  | .ldKk x _, r | .addKk x _, r | .ldVy x _, r | .orVy x _, r | .andVy x _, r | .xorVy x _, r | .rnd x _, r
  | .ldVxDt x, r | .ldVxK x, r => r = x
  | .addVy x _, r | .subVy x _, r | .shrVx x, r | .subnVy x _, r | .shlVx x, r => r = x ∨ r = 0xF
  | .loadRegs x, r => r.toNat ≤ x.toNat
  | .drw _ _ _, r => r = 0xF
  | _, _ => False

/-- The part is held by the very same fields in both states: `State.kept` with memory and framebuffer as they are stored,
not as they read. -/
def State.same (s t : State) : Part → Prop
  | .screen => t.fb = s.fb
  | .mem => t.mem = s.mem
  | p => s.kept t p

theorem State.same.kept {s t : State} {p : Part} (h : s.same t p) : s.kept t p := by
  cases p
  case screen => intro y x; rw [show t.fb = s.fb from h]
  case mem => intro a; rw [show t.mem = s.mem from h]
  all_goals exact h

/-- Every instruction answers a next state, and whichever way it ends, a part no rule of it names is the same there
(10_state R20, 40_step R120). -/
theorem exec_ends (i : Instr) (s : State) : ∃ t, exec i s = .next t ∧ ∀ p, p ∉ writtenParts i → s.same t p := by
  cases i <;> simp only [exec]
  case' ret => rcases execRet_cases s with ⟨-, e⟩ | ⟨-, _, _, e⟩ <;> refine ⟨_, e, ?_⟩
  case' call nnn => rcases execCall_cases nnn s with ⟨-, e⟩ | ⟨_, _, e⟩ <;> refine ⟨_, e, ?_⟩
  case' ldBVx x => rcases execLdBVx_cases x s with ⟨-, e⟩ | ⟨-, e⟩ <;> refine ⟨_, e, ?_⟩
  case' storeRegs x => rcases execStoreRegs_cases x s with ⟨-, e⟩ | ⟨-, e⟩ <;> refine ⟨_, e, ?_⟩
  case' loadRegs x => rcases execLoadRegs_cases x s with ⟨-, e⟩ | ⟨-, e⟩ <;> refine ⟨_, e, ?_⟩
  case' drw x y n => rcases execDrw_cases x y n s with ⟨-, e⟩ | ⟨-, e⟩ <;> refine ⟨_, e, ?_⟩
  case' ldVxK x => rcases execLdVxK_cases x s with ⟨-, e⟩ | ⟨_, -, e⟩ <;> refine ⟨_, e, ?_⟩
  case' cls | jp | jpV0 | seKk | sneKk | seVy | sneVy | skp | sknp | ldKk | addKk | ldVy | orVy | andVy | xorVy | addVy
      | subVy | shrVx | subnVy | shlVx | rnd | ldVxDt | ldI | addIVx | ldFVx | ldDtVx | ldStVx =>
    refine ⟨_, State.done_eq _, ?_⟩
  all_goals
    intro p hp
    cases p <;> simp [writtenParts, State.same, State.kept] at hp ⊢

/-- No instruction is refused and none stops the machine (40_step R120). -/
theorem exec_total (i : Instr) (s : State) : ∃ t, exec i s = .next t := by
  obtain ⟨t, e, -⟩ := exec_ends i s
  exact ⟨t, e⟩

/-- A part no rule of the instruction names is the same after it (10_state R20). -/
theorem exec_same {i : Instr} {s t : State} (h : exec i s = .next t) (p : Part) (hp : p ∉ writtenParts i) :
    s.same t p := by
  obtain ⟨t', e, keeps⟩ := exec_ends i s
  cases h.symm.trans e
  exact keeps p hp

/-- A register the instruction does not name as its destination, as the flag or in the block it loads reads as before
(10_state R21, R22). -/
theorem exec_getV_kept {i : Instr} {s t : State} (h : exec i s = .next t) (r : Nibble) (hr : ¬ writesReg i r) :
    t.getV r = s.getV r := by
  by_cases hw : .regs ∈ writtenParts i
  case neg => exact exec_same h .regs hw r
  case pos =>
    cases i <;> simp [writtenParts] at hw <;> simp only [exec] at h <;> simp [writesReg] at hr
    case' loadRegs x => rcases execLoadRegs_cases x s with ⟨-, e⟩ | ⟨-, e⟩ <;> rw [e] at h
    case' drw x y n => rcases execDrw_cases x y n s with ⟨-, e⟩ | ⟨-, e⟩ <;> rw [e] at h
    case' ldVxK x => rcases execLdVxK_cases x s with ⟨-, e⟩ | ⟨_, -, e⟩ <;> rw [e] at h
    all_goals
      cases h
      simp [hr]

/-- `RET` reads a stack slot and writes none (41_flow R130). -/
theorem execRet_stack {s t : State} (h : execRet s = .next t) : t.stack = s.stack := by
  rcases execRet_cases s with ⟨-, e⟩ | ⟨-, _, _, e⟩ <;> cases h.symm.trans e <;> rfl

/-- Settles O50: the parts and the registers an instruction may write are those `writtenParts` and `writesReg` list. -/
theorem onlyTheNamedInstructionsWriteEachPart : Obligations.OnlyTheNamedInstructionsWriteEachPart := by
  intro i s t h
  have regs := exec_getV_kept h
  have keeps : ∀ p, p ∉ writtenParts i → s.kept t p := fun p hp => (exec_same h p hp).kept
  refine ⟨?_, fun hi => keeps .index ?_, fun hi => keeps .pc ?_, fun hi => (keeps .stack ?_).1, fun hi => ?stack,
    fun hi => keeps .delay ?_, fun hi => keeps .sound ?_, fun hi => keeps .screen ?_, fun hi => keeps .mem ?_,
    keeps .host ?host⟩
  case refine_1 =>
    cases i
    case ldKk | addKk | ldVy | orVy | andVy | xorVy | rnd | ldVxDt | ldVxK | drw => exact regs
    case addVy | subVy | shrVx | subnVy | shlVx => exact fun r hx hf => regs r (not_or.2 ⟨hx, hf⟩)
    case loadRegs => exact fun r hr => regs r (Nat.not_le.2 hr)
    all_goals exact fun r => regs r id
  case stack =>
    cases i
    case ret => exact execRet_stack h
    case call => exact hi.elim
    all_goals exact (keeps .stack (by simp [writtenParts])).2
  case host => cases i <;> simp [writtenParts]
  all_goals cases i <;> simp [writtenParts] at hi ⊢

/-- A flag is 0 or 1 (10_state R22). -/
theorem flagByte_zero_or_one (b : Bool) : flagByte b = 0 ∨ flagByte b = 1 := by
  cases b
  · exact .inl rfl
  · exact .inr rfl

/-- A flag written before another register's value is still 0 or 1 at the end (42_alu R163, R164). -/
theorem vf_zero_or_one_of_flag_then_setV {s t : State} {b : Bool} {x : Nibble} {v : Byte}
    (h : ((s.setFlag b).setV x v).done = .next t) (hx : x ≠ 0xF) : t.getV 0xF = 0 ∨ t.getV 0xF = 1 := by
  obtain rfl := (State.done_next _ _).1 h
  rw [State.getV_update, State.getV_setV, if_neg hx.symm, State.getV_setFlag, if_pos rfl]
  exact flagByte_zero_or_one b

/-- A completed DRW leaves VF 0 or 1 (44_display R204). -/
theorem vf_zero_or_one_of_drw {s t : State} {x y n : Nibble} (h : execDrw x y n s = .next t) (hok : t.result = .ok) :
    t.getV 0xF = 0 ∨ t.getV 0xF = 1 := by
  rcases execDrw_cases x y n s with ⟨-, e⟩ | ⟨-, e⟩ <;> cases h.symm.trans e
  · cases hok
  · rw [State.getV_update, State.getV_setFlag, if_pos rfl]
    exact flagByte_zero_or_one _

/-- Settles O51: an instruction that writes no flag keeps VF by `exec_getV_kept` unless it names it. -/
theorem onlyFlagWritersTouchVf : Obligations.OnlyFlagWritersTouchVf := by
  intro i s t h
  have vfKept := exec_getV_kept h 0xF
  cases i
  case addVy | subVy | shrVx | subnVy | shlVx => exact vf_zero_or_one_of_flag_then_setV h
  case drw => exact vf_zero_or_one_of_drw h
  case ldKk | addKk | ldVy | orVy | andVy | xorVy | rnd | ldVxDt | ldVxK => exact fun hx => vfKept (Ne.symm hx)
  case loadRegs x =>
    intro hx
    have hlt : ¬ (0xF : Nibble).toNat ≤ x.toNat := by
      intro hle
      exact hx (BitVec.eq_of_toNat_eq (Nat.le_antisymm (Nat.le_of_lt_succ x.isLt) hle))
    exact vfKept hlt
  all_goals exact vfKept id

/-! ### The invariant (spec/10_state.md R35) -/

/-- Settles O48: the reset stack has no valid entry and no memory cell is listed. -/
theorem invariantHoldsAtReset : Obligations.InvariantHoldsAtReset where
  pc := by unfold State.pcBounded; decide
  stack := fun _ _ h => absurd h (Nat.not_lt_zero _)
  mem := State.wf_reset_mem

/-- The invariant speaks of PC, the stack and memory alone. -/
theorem State.Inv.of_eq {s t : State} (hs : s.Inv) (hpc : t.pc = s.pc) (hsp : t.sp = s.sp) (hstack : t.stack = s.stack)
    (hmem : t.mem = s.mem) : t.Inv := by
  obtain ⟨pc, stack, mem⟩ := hs
  refine ⟨?_, ?_, hmem ▸ mem⟩
  · rwa [State.pcBounded, hpc]
  · simpa only [State.stackBounded, hsp, hstack] using stack

/-- Where PC stands when an instruction is executed: two bytes beyond the fetch, which stopped below 0x1000
(20_memory R54, 40_step R113). -/
def State.pcAdvanced (s : State) : Prop := 2 ≤ s.pc.toNat ∧ s.pc.toNat ≤ 0x1000

theorem State.pcAdvanced_advance {s : State} {op : Word} (h : s.fetch = some op) : s.advance.pcAdvanced := by
  have hpc := s.fetch_some_bound op h
  simp only [State.pcAdvanced, State.advance_pc]
  bv_omega

/-- A skip from an advanced PC stays in bounds (41_flow R131). -/
theorem skipIf_pcBounded {s t : State} {b : Bool} (hs : s.pcAdvanced) (h : (s.skipIf b).done = .next t) :
    t.pcBounded := by
  obtain rfl := (State.done_next _ _).1 h
  obtain ⟨-, hle⟩ := hs
  simp only [State.pcBounded, State.skipIf_pc]
  split <;> bv_omega

/-- The target of `JP V0,nnn` is at most 0x10FE (41_flow R138, 10_state R25). -/
theorem offsetTarget_le (v0 : Byte) (nnn : Addr) : (offsetTarget v0 nnn).toNat ≤ 0x10FE := by
  simp only [offsetTarget, Byte.zext, Addr.zext]
  bv_omega

/-- The address field reaches no further than 0xFFF (00_scope R15). -/
theorem Addr.toNat_zext_le (nnn : Addr) : nnn.zext.toNat ≤ 0xFFF := by
  simp only [Addr.zext]
  bv_omega

/-- PC after an instruction (10_state R25). -/
theorem exec_pcBounded {i : Instr} {s t : State} (hpc : s.pcAdvanced) (hstack : s.stackBounded)
    (h : exec i s = .next t) : t.pcBounded := by
  obtain ⟨hge, hle⟩ := id hpc
  have keptPc : t.pc = s.pc → t.pcBounded := fun e => by simp only [State.pcBounded, e]; omega
  by_cases hw : .pc ∈ writtenParts i
  case neg => exact keptPc (exec_same h .pc hw)
  case pos =>
    cases i <;> simp [writtenParts] at hw
    case seKk | sneKk | seVy | sneVy | skp | sknp => exact skipIf_pcBounded hpc h
    case jp nnn => cases h; have := Addr.toNat_zext_le nnn; simp only [State.pcBounded]; omega
    case jpV0 nnn => cases h; exact offsetTarget_le _ _
    case ret =>
      rcases execRet_cases s with ⟨-, e⟩ | ⟨hpos, h16, _, e⟩ <;> cases h.symm.trans e
      · exact keptPc rfl
      · have := hstack (s.sp.val - 1) h16 (Nat.sub_lt hpos Nat.one_pos)
        simp only [State.pcBounded]; omega
    case call nnn =>
      rcases execCall_cases nnn s with ⟨-, e⟩ | ⟨_, _, e⟩ <;> cases h.symm.trans e
      · exact keptPc rfl
      · have := Addr.toNat_zext_le nnn; simp only [State.pcBounded]; omega
    case ldVxK x =>
      rcases execLdVxK_cases x s with ⟨-, e⟩ | ⟨_, -, e⟩ <;> cases h.symm.trans e
      · simp only [State.pcBounded]; bv_omega
      · exact keptPc rfl

/-- The valid stack entries after an instruction: CALL adds the advanced PC, RET takes one away (10_state R35). -/
theorem exec_stackBounded {i : Instr} {s t : State} (hpc : s.pcAdvanced) (hstack : s.stackBounded)
    (h : exec i s = .next t) : t.stackBounded := by
  by_cases hw : .stack ∈ writtenParts i
  case neg =>
    obtain ⟨hsp, hst⟩ := exec_same h .stack hw
    simpa only [State.stackBounded, hsp, hst] using hstack
  case pos =>
    cases i <;> simp [writtenParts] at hw
    case ret =>
      rcases execRet_cases s with ⟨-, e⟩ | ⟨hpos, h16, _, e⟩ <;> cases h.symm.trans e
      · exact hstack
      · exact fun k hk hlt => hstack k hk (Nat.lt_of_lt_of_le hlt (Nat.sub_le _ _))
    case call nnn =>
      rcases execCall_cases nnn s with ⟨-, e⟩ | ⟨_, _, e⟩ <;> cases h.symm.trans e
      · exact hstack
      · intro k hk hlt
        by_cases hk' : k = s.sp.val
        · subst hk'
          simpa using hpc.2
        · have : k < s.sp.val := by simp only at hlt; omega
          simpa [Vector.getElem_set, Ne.symm hk'] using hstack k hk this

/-- Memory keeps its canonical form through an instruction: the two that store write by `writeBytes` (43_index R183,
R184). -/
theorem exec_mem_wf {i : Instr} {s t : State} (hmem : s.mem.wf = true) (h : exec i s = .next t) : t.mem.wf = true := by
  by_cases hw : .mem ∈ writtenParts i
  case neg => exact (exec_same h .mem hw : t.mem = s.mem) ▸ hmem
  case pos =>
    cases i <;> simp [writtenParts] at hw
    case ldBVx x =>
      rcases execLdBVx_cases x s with ⟨-, e⟩ | ⟨-, e⟩ <;> cases h.symm.trans e
      · exact hmem
      · exact Memory.wf_writeBytes _ _ _ hmem
    case storeRegs x =>
      rcases execStoreRegs_cases x s with ⟨-, e⟩ | ⟨-, e⟩ <;> cases h.symm.trans e
      · exact hmem
      · exact Memory.wf_writeBytes _ _ _ hmem

/-- A STEP keeps the invariant: a fetch that succeeds leaves PC where every instruction keeps it in bounds
(10_state R25, R35). -/
theorem cycle_inv {s t : State} (hs : s.Inv) (h : cycle s = .next t) : t.Inv := by
  obtain ⟨-, stack, mem⟩ := id hs
  rcases cycle_cases s t h with ⟨-, rfl⟩ | ⟨op, hf, -, rfl⟩ | ⟨op, i, hf, -, he⟩
  · exact hs.of_eq rfl rfl rfl rfl
  · exact ⟨Nat.le_trans (State.pcAdvanced_advance hf).2 (by decide), stack, mem⟩
  · have hpc := State.pcAdvanced_advance hf
    exact ⟨exec_pcBounded hpc stack he, exec_stackBounded hpc stack he, exec_mem_wf (s := s.advance) mem he⟩

/-- RESET establishes the invariant (70_reset R280). -/
theorem State.resetCore_inv (s : State) : s.resetCore.Inv :=
  State.Inv.of_eq invariantHoldsAtReset s.resetCore_pc s.resetCore_sp s.resetCore_stack s.resetCore_mem

/-- LOAD establishes the invariant, or keeps it where the image is too long (70_reset R283, R284). -/
theorem loadImage_inv {s t : State} {bytes : List Byte} (hs : s.Inv) (h : s.loadImage bytes = .next t) : t.Inv := by
  by_cases hlen : bytes.length ≤ 3584
  · obtain rfl := (State.done_next _ _).1 ((s.loadImage_fits bytes hlen).symm.trans h)
    obtain ⟨pc, stack, mem⟩ := s.resetCore_inv
    exact ⟨pc, stack, Memory.wf_writeBytes _ _ _ mem⟩
  · obtain rfl := (State.raise_next _ _ _).1 ((s.loadImage_long bytes (by omega)).symm.trans h)
    exact hs.of_eq rfl rfl rfl rfl

/-- Settles O49, by the four host operations: RESET and LOAD establish the invariant anew, TICK does not touch its fields,
a STEP keeps it by `cycle_inv`. -/
theorem everyStepKeepsTheInvariant : Obligations.EveryStepKeepsTheInvariant := by
  intro s t hs h
  have issued : s.consumeOp.Inv := hs.of_eq s.consumeOp_pc s.consumeOp_sp s.consumeOp_stack s.consumeOp_mem
  rcases step_cases s t h with ⟨-, rfl⟩ | ⟨bytes, -, hl⟩ | ⟨-, ht⟩ | ⟨keys, rnd, -, hc⟩
  · exact s.consumeOp.resetCore_inv
  · exact loadImage_inv issued hl
  · obtain rfl := (State.done_next _ _).1 ht
    exact issued.of_eq rfl rfl rfl rfl
  · have sampled : (s.consumeOp.sample keys rnd).Inv := issued.of_eq rfl rfl rfl rfl
    exact cycle_inv sampled hc

/-! ### What no operation reads: the last result and the dead stack slots (spec/10_state.md R26, R28) -/

/-- The state with other stack slots and another last result. -/
def State.withUnread (s : State) (u : Vector Word 16) (q : OpResult) : State := { s with stack := u, result := q }

/-- A change of the state, applied to the next state an operation answers. -/
def mapNext (f : State → State) : Outcome → Outcome
  | .next s => .next (f s)
  | .fault r => .fault r
  | .refused r => .refused r

section withUnread
variable (s : State) (u : Vector Word 16) (q : OpResult)

@[simp] theorem State.withUnread_i : (s.withUnread u q).i = s.i := rfl
@[simp] theorem State.getV_withUnread (r : Nibble) : (s.withUnread u q).getV r = s.getV r := rfl
@[simp] theorem State.firstRegs_withUnread (x : Nibble) : (s.withUnread u q).firstRegs x = s.firstRegs x := rfl
@[simp] theorem State.selectedKey_withUnread : (s.withUnread u q).selectedKey = s.selectedKey := rfl
@[simp] theorem State.fetch_withUnread : (s.withUnread u q).fetch = s.fetch := rfl
@[simp] theorem State.currentOp_withUnread : (s.withUnread u q).currentOp = s.currentOp := rfl

@[simp] theorem State.memRead_withUnread (a n : Nat) : (s.withUnread u q).memRead a n = s.memRead a n := rfl

@[simp] theorem State.memWrite_withUnread (a : Nat) (bs : List Byte) :
    (s.withUnread u q).memWrite a bs = (s.memWrite a bs).map (fun t => t.withUnread u q) := by
  unfold State.memWrite
  split <;> rfl

@[simp] theorem State.consumeOp_withUnread : (s.withUnread u q).consumeOp = s.consumeOp.withUnread u q := by
  cases h : s.script with
  | nil => rw [s.consumeOp_nil h]; exact State.consumeOp_nil _ h
  | cons op rest => rw [s.consumeOp_cons op rest h]; exact State.consumeOp_cons _ op rest h

end withUnread

/-- An instruction that is neither CALL nor RET runs alike whatever the stack slots and the last result hold: it keeps the
slots and replaces the result (10_state R26, R28). -/
theorem exec_withUnread {i : Instr} (hi : Part.stack ∉ writtenParts i) (s : State) (u : Vector Word 16) (q : OpResult) :
    exec i (s.withUnread u q) = mapNext (fun t => t.withUnread u t.result) (exec i s) := by
  have skip : ∀ b : Bool, ((s.withUnread u q).skipIf b).done =
      mapNext (fun t => t.withUnread u t.result) (s.skipIf b).done := fun b => by cases b <;> rfl
  cases i <;> simp [writtenParts] at hi <;> simp only [exec]
  case seKk | sneKk | seVy | sneVy | skp | sknp => exact skip _
  case drw x y n =>
    rw [execDrw, execDrw, State.memRead_withUnread, State.withUnread_i]
    cases s.memRead s.i.toNat n.toNat <;> rfl
  case loadRegs x =>
    rw [execLoadRegs, execLoadRegs, State.memRead_withUnread, State.withUnread_i]
    cases s.memRead s.i.toNat (x.toNat + 1) <;> rfl
  case ldVxK x =>
    rw [execLdVxK, execLdVxK, State.selectedKey_withUnread]
    cases s.selectedKey <;> rfl
  case ldBVx x =>
    rw [execLdBVx, execLdBVx, State.memWrite_withUnread, State.withUnread_i, State.getV_withUnread]
    cases s.memWrite s.i.toNat (decimalDigits (s.getV x)) <;> rfl
  case storeRegs x =>
    rw [execStoreRegs, execStoreRegs, State.memWrite_withUnread, State.withUnread_i, State.firstRegs_withUnread]
    cases s.memWrite s.i.toNat (s.firstRegs x) <;> rfl
  all_goals rfl

/-- `RET` on an empty stack (60_exceptions R245). -/
theorem execRet_of_empty (s : State) (h : s.sp.val = 0) :
    execRet s = .next { s with result := .fault .stackUnderflow } := by
  rw [execRet, s.pop_empty h, State.raise_eq]

/-- `CALL` on a full stack (60_exceptions R244). -/
theorem execCall_of_full (nnn : Addr) (s : State) (h : s.sp.val = 16) :
    execCall nnn s = .next { s with result := .fault .stackOverflow } := by
  rw [execCall, s.push_full (by omega), State.raise_eq]

/-- No instruction reads the last result (10_state R28). -/
theorem exec_withResult (i : Instr) (s : State) (q : OpResult) : exec i (s.withUnread s.stack q) = exec i s := by
  by_cases hi : Part.stack ∈ writtenParts i
  case neg => exact (exec_withUnread hi s s.stack q).trans (exec_withUnread hi s s.stack s.result).symm
  case pos =>
    cases i <;> simp [writtenParts] at hi <;> simp only [exec]
    case ret =>
      rcases execRet_cases s with ⟨h, e⟩ | ⟨h, h16, h17, e⟩ <;> rw [e]
      · exact execRet_of_empty (s.withUnread s.stack q) h
      · exact execRet_of_pos (s.withUnread s.stack q) h h16 h17
    case call nnn =>
      rcases execCall_cases nnn s with ⟨h, e⟩ | ⟨h, h17, e⟩ <;> rw [e]
      · exact execCall_of_full nnn (s.withUnread s.stack q) h
      · exact execCall_of_lt nnn (s.withUnread s.stack q) h h17

/-- No STEP reads the last result. -/
theorem cycle_withResult (s : State) (q : OpResult) : cycle (s.withUnread s.stack q) = cycle s := by
  rw [cycle, cycle, State.fetch_withUnread]
  cases s.fetch with
  | none => rfl
  | some op =>
    cases hd : decodeWord op with
    | none => simp only [hd]; rfl
    | some i => simp only [hd]; exact exec_withResult i s.advance q

/-- No host operation reads the last result. -/
theorem perform_withResult (op : HostOp) (s : State) (q : OpResult) :
    perform op (s.withUnread s.stack q) = perform op s := by
  cases op with
  | reset => rfl
  | tick => rfl
  | load bytes =>
    simp only [perform, State.loadImage]
    split <;> rfl
  | step keys rnd => exact cycle_withResult (s.sample keys rnd) q

/-- Settles O54: the host's next operation is the same, and `perform_withResult` holds of it. -/
theorem noStepReadsTheResult : Obligations.NoStepReadsTheResult := by
  intro s q
  have issued : (s.withUnread s.stack q).consumeOp = s.consumeOp.withUnread s.consumeOp.stack q := by simp
  calc step (s.withUnread s.stack q)
      = perform s.currentOp (s.consumeOp.withUnread s.consumeOp.stack q) := by rw [step, issued]; rfl
    _ = step s := perform_withResult _ _ q

/-- The slots hold the valid stack entries of the state (10_state R26). -/
def State.liveSlotsAre (s : State) (u : Vector Word 16) : Prop :=
  ∀ (k : Nat) (h : k < 16), k < s.sp.val → s.stack[k]'h = u[k]'h

theorem State.sameButDeadSlots_iff (s t : State) :
    s.sameButDeadSlots t ↔ ∃ u, t = s.withUnread u s.result ∧ s.liveSlotsAre u := by
  constructor
  · rintro ⟨e, live⟩
    exact ⟨t.stack, e.symm, live⟩
  · rintro ⟨u, rfl, live⟩
    exact ⟨rfl, live⟩

theorem State.sameButDeadSlots_refl (s : State) : s.sameButDeadSlots s := ⟨rfl, fun _ _ _ => rfl⟩

/-- What an instruction leaves differs at most in dead slots when what it started from did: RET reads the topmost valid
entry, CALL writes the first dead slot (10_state R26, 41_flow R130, R134). -/
theorem exec_withDeadSlots {i : Instr} {s s' : State} {u : Vector Word 16} (live : s.liveSlotsAre u)
    (h : exec i s = .next s') : ∃ t', exec i (s.withUnread u s.result) = .next t' ∧ s'.sameButDeadSlots t' := by
  by_cases hi : Part.stack ∈ writtenParts i
  case neg =>
    obtain ⟨hsp, hstack⟩ := exec_same h .stack hi
    have live' : s'.liveSlotsAre u := by simpa only [State.liveSlotsAre, hsp, hstack] using live
    exact ⟨s'.withUnread u s'.result, by rw [exec_withUnread hi, h]; rfl, rfl, live'⟩
  case pos =>
    cases i <;> simp [writtenParts] at hi <;> simp only [exec] at h ⊢
    case ret =>
      rcases execRet_cases s with ⟨h0, e⟩ | ⟨h0, h16, h17, e⟩ <;> cases h.symm.trans e
      · exact ⟨_, execRet_of_empty (s.withUnread u s.result) h0, rfl, live⟩
      · have top := live (s.sp.val - 1) h16 (Nat.sub_lt h0 Nat.one_pos)
        refine ⟨_, execRet_of_pos (s.withUnread u s.result) h0 h16 h17, ?_, ?_⟩
        · simp [State.withUnread, top]
        · exact fun k hk hlt => live k hk (Nat.lt_of_lt_of_le hlt (Nat.sub_le _ _))
    case call nnn =>
      rcases execCall_cases nnn s with ⟨h0, e⟩ | ⟨h0, h17, e⟩ <;> cases h.symm.trans e
      · exact ⟨_, execCall_of_full nnn (s.withUnread u s.result) h0, rfl, live⟩
      · refine ⟨_, execCall_of_lt nnn (s.withUnread u s.result) h0 h17, rfl, ?_⟩
        intro k hk hlt
        simp only [State.withUnread, Vector.getElem_set]
        split
        · rfl
        · exact live k hk (by simp only at hlt; omega)

/-- Dead slots reach nothing but dead slots in a STEP. -/
theorem cycle_withDeadSlots {s s' : State} {u : Vector Word 16} (live : s.liveSlotsAre u) (h : cycle s = .next s') :
    ∃ t', cycle (s.withUnread u s.result) = .next t' ∧ s'.sameButDeadSlots t' := by
  rcases cycle_cases s s' h with ⟨hf, rfl⟩ | ⟨op, hf, hd, rfl⟩ | ⟨op, i, hf, hd, he⟩ <;>
    simp only [cycle, State.fetch_withUnread, hf]
  · exact ⟨_, State.raise_eq _ _, rfl, live⟩
  · simp only [hd]
    exact ⟨_, State.raise_eq _ _, rfl, live⟩
  · simp only [hd]
    exact exec_withDeadSlots (s := s.advance) live he

/-- Dead slots reach nothing but dead slots in any host operation; RESET and a completed LOAD clear them. -/
theorem perform_withDeadSlots {op : HostOp} {s s' : State} {u : Vector Word 16} (live : s.liveSlotsAre u)
    (h : perform op s = .next s') :
    ∃ t', perform op (s.withUnread u s.result) = .next t' ∧ s'.sameButDeadSlots t' := by
  cases op with
  | reset => exact ⟨s', h, s'.sameButDeadSlots_refl⟩
  | tick =>
    obtain rfl := (State.done_next _ _).1 h
    exact ⟨_, State.done_eq _, rfl, live⟩
  | load bytes =>
    by_cases hlen : bytes.length ≤ 3584
    · exact ⟨s', (State.loadImage_fits _ bytes hlen).trans ((s.loadImage_fits bytes hlen).symm.trans h),
        s'.sameButDeadSlots_refl⟩
    · have hlong : 3584 < bytes.length := by omega
      obtain rfl := (State.raise_next _ _ _).1 ((s.loadImage_long bytes hlong).symm.trans h)
      exact ⟨_, State.loadImage_long _ bytes hlong, rfl, live⟩
  | step keys rnd => exact cycle_withDeadSlots (s := s.sample keys rnd) live h

/-- Settles O55: the second state is the first with other dead slots, which no operation reads. -/
theorem deadStackSlotsCannotBeObserved : Obligations.DeadStackSlotsCannotBeObserved := by
  intro s t s' hst h
  obtain ⟨u, rfl, live⟩ := (s.sameButDeadSlots_iff t).1 hst
  have live' : s.consumeOp.liveSlotsAre u := by
    simpa only [State.liveSlotsAre, State.consumeOp_sp, State.consumeOp_stack] using live
  rw [step, State.currentOp_withUnread, State.consumeOp_withUnread, ← s.consumeOp_result]
  exact perform_withDeadSlots live' h

/-! ### Every schedule is admitted (spec/10_state.md R40, spec/70_reset_host.md R297) -/

/-- Every host operation answers a next state (10_state R40, 40_step R120). -/
theorem perform_total (op : HostOp) (s : State) : ∃ t, perform op s = .next t := by
  cases op with
  | reset => exact ⟨_, State.done_eq _⟩
  | tick => exact ⟨_, State.done_eq _⟩
  | load bytes =>
    simp only [perform, State.loadImage]
    split
    · exact ⟨_, State.done_eq _⟩
    · exact ⟨_, State.raise_eq _ _⟩
  | step keys rnd =>
    simp only [perform, cycle]
    split
    · exact ⟨_, State.raise_eq _ _⟩
    · split
      · exact ⟨_, State.raise_eq _ _⟩
      · exact exec_total _ _

/-- A step performs the operation at the head of the script (10_state R40). -/
theorem step_script_cons {op : HostOp} {s t : State} (rest : List HostOp) (h : perform op s = .next t) :
    step { s with script := op :: rest } = .next { t with script := rest } :=
  perform_withScript op s t rest h

/-- A schedule performed operation by operation ends where the machine's run of that script ends. -/
theorem performAll_run (ops : List HostOp) (s : State) :
    ∃ t, performAll ops s = .next t ∧
      ∀ rest, Host.Core.run Sys2Proof.core ops.length ({ s with script := ops ++ rest } : State) =
        .next ({ t with script := rest } : State) := by
  induction ops generalizing s with
  | nil => exact ⟨s, rfl, fun _ => rfl⟩
  | cons op ops ih =>
    obtain ⟨u, hu⟩ := perform_total op s
    obtain ⟨t, ht, hrun⟩ := ih u
    refine ⟨t, by rw [performAll, hu]; exact ht, fun rest => ?_⟩
    exact (run_succ_of_next Sys2Proof.core _ _ _ (step_script_cons (ops ++ rest) hu)).trans (hrun rest)

/-- Settles O58: beyond the script, the step's operation is the free value. -/
theorem everyScheduleOfHostOperationsIsAdmitted : Obligations.EveryScheduleOfHostOperationsIsAdmitted := by
  refine ⟨performAll_run, fun s hs => ?_⟩
  rw [step, s.currentOp_nil hs, s.consumeOp_nil hs]

/-! ### The reset state (spec/10_state.md R33, R34) -/

/-- Outside the font table memory is 0 after RESET (10_state R34). -/
theorem read_reset_outside_font {a : Nat} (h : a < 0x050 ∨ 0x09F < a) : State.reset.mem.read a = 0 := by
  have out : ¬ (Config.fontBase ≤ a ∧ a < Config.fontBase + 80) := by
    simp only [Config.fontBase]; omega
  exact if_neg out

/-- Every pixel is off after RESET (10_state R34). -/
theorem pixel_reset (y x : Nat) : State.reset.fb.pixel y x = false := Framebuffer.pixel_clear y x

/-- Every stack slot is 0 after RESET (10_state R34). -/
theorem stack_reset (k : Nat) (h : k < 16) : State.reset.stack[k]'h = 0 := by
  simp [State.reset]

/-- Settles O44; the eighty font bytes are read out of the reset memory. -/
theorem resetStateIsAsListed : Obligations.ResetStateIsAsListed :=
  ⟨State.getV_reset, rfl, rfl, rfl, stack_reset, rfl, rfl, pixel_reset, fun _ => read_reset_outside_font, rfl, rfl⟩

end Sys2Proof.Machine

namespace Sys2Proof.Machine

/-! ### What a fetch reads (spec/20_memory.md R51, R54, R66) -/

/-- Settles O7, by the value of a word of two bytes. -/
theorem fetchIsBigEndian : Obligations.FetchIsBigEndian :=
  fun s h => ⟨_, s.fetch_of_le h, toNat_wordOfBytes _ _⟩

/-- A STEP whose fetch fails reports AddressOutOfRange and changes nothing else (20_memory R54, 40_step R111). -/
theorem cycle_of_fetch_none {s : State} (h : s.fetch = none) :
    cycle s = .next { s with result := .fault .addressOutOfRange } := by
  rw [cycle, h, State.raise_eq]

/-- Settles O8: issuing the operation and sampling the inputs leave PC, so the fetch fails at the PC the step began with. -/
theorem fetchBeyondMemoryFaultsAndChangesNothing : Obligations.FetchBeyondMemoryFaultsAndChangesNothing := by
  refine ⟨fun s k b hop hpc => ?_, fun s hpc => ?_⟩
  · have failed : (s.consumeOp.sample k b).fetch = none :=
      State.fetch_of_gt _ (by rw [State.sample_pc, State.consumeOp_pc]; omega)
    rw [step, hop]
    exact cycle_of_fetch_none failed
  · simp [s.fetch_of_le (by omega)]

/-- A read after V0 to Vx are stored at I is `byteAfterStore` (43_index R184). -/
theorem State.read_writeBytes_firstRegs (s : State) (x : Nibble) (a : Nat) (h : s.i.toNat + x.toNat ≤ 0xFFF) :
    (s.mem.writeBytes s.i.toNat (s.firstRegs x)).read a = s.byteAfterStore x a := by
  rw [Memory.read_writeBytes _ _ _ _ (by rw [State.length_firstRegs]; omega), State.length_firstRegs,
    State.byteAfterStore]
  by_cases block : s.i.toNat ≤ a ∧ a ≤ s.i.toNat + x.toNat
  · rw [if_pos (by omega), if_pos block, s.getD_firstRegs x _ (by omega)]
  · rw [if_neg (by omega), if_neg block]

/-- Each decimal digit of a byte fits the byte it is stored in (43_index R183). -/
theorem toNat_getD_decimalDigits (b : Byte) :
    ((decimalDigits b).getD 0 0).toNat = b.toNat / 100 ∧
    ((decimalDigits b).getD 1 0).toNat = b.toNat / 10 % 10 ∧
    ((decimalDigits b).getD 2 0).toNat = b.toNat % 10 := by
  have hb := b.isLt
  simp only [decimalDigits, List.getD_cons_zero, List.getD_cons_succ, BitVec.toNat_ofNat]
  omega

/-- A read after the digits of Vx are stored at I is `byteAfterDigits` (43_index R183). -/
theorem State.toNat_read_writeBytes_decimalDigits (s : State) (x : Nibble) (a : Nat) (h : s.i.toNat + 2 ≤ 0xFFF) :
    ((s.mem.writeBytes s.i.toNat (decimalDigits (s.getV x))).read a).toNat = s.byteAfterDigits x a := by
  obtain ⟨hundreds, tens, ones⟩ := toNat_getD_decimalDigits (s.getV x)
  rw [Memory.read_writeBytes _ _ _ _ (by rw [length_decimalDigits]; omega), length_decimalDigits,
    State.byteAfterDigits]
  by_cases block : s.i.toNat ≤ a ∧ a < s.i.toNat + 3
  · rw [if_pos block]
    obtain rfl | rfl | rfl : a = s.i.toNat ∨ a = s.i.toNat + 1 ∨ a = s.i.toNat + 2 := by omega
    · simpa using hundreds
    · simpa using tens
    · simpa using ones
  · rw [if_neg block, if_neg (by omega), if_neg (by omega), if_neg (by omega)]

/-- Settles O33: a fetch is two reads, and each read after the store is the byte the store's rule gives. -/
theorem storeIsSeenByTheNextFetch : Obligations.StoreIsSeenByTheNextFetch := by
  refine ⟨fun x s pc hi hpc => ?_, fun x s pc hi hpc => ?_⟩
  · refine ⟨_, _, execStoreRegs_inRange x s hi, State.fetch_of_le _ (Nat.succ_le_succ hpc), ?_⟩
    rw [toNat_wordOfBytes, s.read_writeBytes_firstRegs x _ hi, s.read_writeBytes_firstRegs x _ hi]
  · refine ⟨_, _, execLdBVx_inRange x s hi, State.fetch_of_le _ (Nat.succ_le_succ hpc), ?_⟩
    rw [toNat_wordOfBytes, s.toNat_read_writeBytes_decimalDigits x _ hi,
      s.toNat_read_writeBytes_decimalDigits x _ hi]

end Sys2Proof.Machine

namespace Sys2Proof

/-! ### The fields of a word as numbers (spec/00_scope.md R15), and the words that have given fields -/

/-- The family is the word's quotient by 2^12 (00_scope R15). -/
theorem toNat_fieldFam (op : Word) : (fieldFam op).toNat = op.toNat / 4096 := by
  have hop := op.isLt
  rw [fieldFam, BitVec.extractLsb'_toNat, Nat.shiftRight_eq_div_pow]
  omega

/-- `x` is the third hexadecimal digit (00_scope R15). -/
theorem toNat_fieldX (op : Word) : (fieldX op).toNat = op.toNat / 256 % 16 := by
  rw [fieldX, BitVec.extractLsb'_toNat, Nat.shiftRight_eq_div_pow]

/-- `y` is the second hexadecimal digit (00_scope R15). -/
theorem toNat_fieldY (op : Word) : (fieldY op).toNat = op.toNat / 16 % 16 := by
  rw [fieldY, BitVec.extractLsb'_toNat, Nat.shiftRight_eq_div_pow]

/-- The low byte is the word's remainder by 2^8 (00_scope R15). -/
theorem toNat_fieldKk (op : Word) : (fieldKk op).toNat = op.toNat % 256 := by
  rw [fieldKk, BitVec.extractLsb'_toNat, Nat.shiftRight_zero]

/-- The low nibble is the word's remainder by 2^4 (00_scope R15). -/
theorem toNat_fieldN (op : Word) : (fieldN op).toNat = op.toNat % 16 := by
  rw [fieldN, BitVec.extractLsb'_toNat, Nat.shiftRight_zero]

/-- A word is the `NNN` word of exactly its own fields. -/
theorem packNnn_eq_iff {f : Nibble} {a : Addr} {op : Word} :
    packNnn f a = op ↔ fieldFam op = f ∧ fieldNnn op = a := by
  constructor
  · rintro rfl; simp
  · rintro ⟨rfl, rfl⟩; exact packNnn_fields op

/-- A word is the `XKK` word of exactly its own fields. -/
theorem packXkk_eq_iff {f x : Nibble} {k : Byte} {op : Word} :
    packXkk f x k = op ↔ fieldFam op = f ∧ fieldX op = x ∧ fieldKk op = k := by
  constructor
  · rintro rfl; simp
  · rintro ⟨rfl, rfl, rfl⟩; exact packXkk_fields op

/-- A word is the `XYN` word of exactly its own fields. -/
theorem packXyn_eq_iff {f x y n : Nibble} {op : Word} :
    packXyn f x y n = op ↔ fieldFam op = f ∧ fieldX op = x ∧ fieldY op = y ∧ fieldN op = n := by
  constructor
  · rintro rfl; simp
  · rintro ⟨rfl, rfl, rfl, rfl⟩; exact packXyn_fields op

/-! ### The round trip from an instruction (spec/30_encoding.md R81, R86) -/

/-- The word of an instruction decodes to it: the family and the discriminator of the packed word select its arm, and
the arm reads its operands back. -/
theorem decodeWord_encode (i : Instr) : decodeWord (encode i) = some i := by
  cases i <;> simp [encode, decodeWord, decodeFamily0, decodeFamily8, decodeFamilyE, decodeFamilyF]

/-- Settles O2: the two bytes make up the word of the instruction again. -/
theorem decodeOfEncodeIsTheInstruction : Obligations.DecodeOfEncodeIsTheInstruction := by
  intro i rest
  rw [encodeBytes, List.cons_append, List.cons_append, List.nil_append, decode_pair, wordOfBytes_high_low,
    decodeWord_encode]

/-! ### The rows of the table by their fields (spec/30_encoding.md R86) -/

/-- The mask F000 selects by the family alone. -/
theorem and_F000_eq_iff {op m : Word} :
    op &&& 0xF000#16 = m ↔ (fieldFam op).toNat = m.toNat / 4096 ∧ m.toNat % 4096 = 0 := by
  have masked : op &&& 0xF000#16 = packXkk (fieldFam op) 0#4 0#8 := by
    conv_lhs => rw [← packXkk_fields op]
    exact Laws.mask_packXkk _ _ _
  rw [masked, packXkk_eq_iff, ← BitVec.toNat_inj, ← BitVec.toNat_inj, ← BitVec.toNat_inj, toNat_fieldFam m,
    toNat_fieldX, toNat_fieldKk, BitVec.toNat_zero, BitVec.toNat_zero]
  omega

/-- The mask F0FF selects by the family and the low byte. -/
theorem and_F0FF_eq_iff {op m : Word} :
    op &&& 0xF0FF#16 = m ↔ (fieldFam op).toNat = m.toNat / 4096 ∧ (fieldKk op).toNat = m.toNat % 4096 := by
  have hk := (fieldKk op).isLt
  have masked : op &&& 0xF0FF#16 = packXkk (fieldFam op) 0#4 (fieldKk op) := by
    conv_lhs => rw [← packXkk_fields op]
    exact Laws.maskXs_packXkk _ _ _
  rw [masked, packXkk_eq_iff, ← BitVec.toNat_inj, ← BitVec.toNat_inj, ← BitVec.toNat_inj, toNat_fieldFam m,
    toNat_fieldX, toNat_fieldKk m, BitVec.toNat_zero]
  omega

/-- The mask F00F selects by the family and the low nibble. -/
theorem and_F00F_eq_iff {op m : Word} :
    op &&& 0xF00F#16 = m ↔ (fieldFam op).toNat = m.toNat / 4096 ∧ (fieldN op).toNat = m.toNat % 4096 := by
  have hn := (fieldN op).isLt
  have masked : op &&& 0xF00F#16 = packXyn (fieldFam op) 0#4 0#4 (fieldN op) := by
    conv_lhs => rw [← packXyn_fields op]
    exact Laws.maskXys_packXyn _ _ _ _
  rw [masked, packXyn_eq_iff, ← BitVec.toNat_inj, ← BitVec.toNat_inj, ← BitVec.toNat_inj, ← BitVec.toNat_inj,
    toNat_fieldFam m, toNat_fieldX, toNat_fieldY, toNat_fieldN m, BitVec.toNat_zero]
  omega

/-- The bits of the field hold its value in the word (00_scope R15). -/
def OperandField.heldBy (f : OperandField) (op : Word) : Prop :=
  (op.extractLsb' f.lo (f.hi + 1 - f.lo)).toNat = f.value

@[simp] theorem OperandField.ofX_heldBy (x : Nibble) (op : Word) : (ofX x).heldBy op ↔ fieldX op = x :=
  BitVec.toNat_inj
@[simp] theorem OperandField.ofY_heldBy (y : Nibble) (op : Word) : (ofY y).heldBy op ↔ fieldY op = y :=
  BitVec.toNat_inj
@[simp] theorem OperandField.ofN_heldBy (n : Nibble) (op : Word) : (ofN n).heldBy op ↔ fieldN op = n :=
  BitVec.toNat_inj
@[simp] theorem OperandField.ofKk_heldBy (k : Byte) (op : Word) : (ofKk k).heldBy op ↔ fieldKk op = k :=
  BitVec.toNat_inj
@[simp] theorem OperandField.ofNnn_heldBy (a : Addr) (op : Word) : (ofNnn a).heldBy op ↔ fieldNnn op = a :=
  BitVec.toNat_inj

/-- The word selects the row of the instruction (30_encoding R86) and holds its operands: what the decoder has read when
it answers the instruction. -/
def Instr.readFrom (i : Instr) (op : Word) : Prop :=
  op &&& (maskAndMatch i).1 = (maskAndMatch i).2 ∧ ∀ f ∈ i.fields, f.heldBy op

/-! ### What the decoder answers, it has read from the word (spec/30_encoding.md R83, R88) -/

/-- Family 0 reads an instruction by its low byte. -/
theorem readFrom_of_decodeFamily0 {op : Word} {i : Instr} (hf : (fieldFam op).toNat = 0x0)
    (h : decodeFamily0 op = some i) : i.readFrom op := by
  unfold decodeFamily0 at h
  split at h <;> cases h
  all_goals simp_all [Instr.readFrom, maskAndMatch, Instr.fields, and_F0FF_eq_iff]

/-- Family 8 reads an instruction by its low nibble. -/
theorem readFrom_of_decodeFamily8 {op : Word} {i : Instr} (hf : (fieldFam op).toNat = 0x8)
    (h : decodeFamily8 op = some i) : i.readFrom op := by
  unfold decodeFamily8 at h
  split at h <;> cases h
  all_goals simp_all [Instr.readFrom, maskAndMatch, Instr.fields, and_F00F_eq_iff]

/-- Family E reads an instruction by its low byte. -/
theorem readFrom_of_decodeFamilyE {op : Word} {i : Instr} (hf : (fieldFam op).toNat = 0xE)
    (h : decodeFamilyE op = some i) : i.readFrom op := by
  unfold decodeFamilyE at h
  split at h <;> cases h
  all_goals simp_all [Instr.readFrom, maskAndMatch, Instr.fields, and_F0FF_eq_iff]

/-- Family F reads an instruction by its low byte. -/
theorem readFrom_of_decodeFamilyF {op : Word} {i : Instr} (hf : (fieldFam op).toNat = 0xF)
    (h : decodeFamilyF op = some i) : i.readFrom op := by
  unfold decodeFamilyF at h
  split at h <;> cases h
  all_goals simp_all [Instr.readFrom, maskAndMatch, Instr.fields, and_F0FF_eq_iff]

/-- The decoder answers only what it has read: the families 0, 8, E and F by their own decoders, every other family by
the family alone. -/
theorem readFrom_of_decodeWord {op : Word} {i : Instr} (h : decodeWord op = some i) : i.readFrom op := by
  have hlt : (fieldFam op).toNat < 16 := (fieldFam op).isLt
  unfold decodeWord at h
  split at h
  case h_1 hf => exact readFrom_of_decodeFamily0 hf h
  case h_9 hf => exact readFrom_of_decodeFamily8 hf h
  case h_15 hf => exact readFrom_of_decodeFamilyE hf h
  case h_16 =>
    have hf : (fieldFam op).toNat = 0xF := by
      simp only [imp_false] at *
      omega
    exact readFrom_of_decodeFamilyF hf h
  all_goals
    rename_i hf
    cases h
    simp [Instr.readFrom, maskAndMatch, Instr.fields, and_F000_eq_iff, hf]

/-! ### Decode and the table, decode and encode (spec/30_encoding.md R85, R86, R89) -/

/-- A word that selects a row decodes to an instruction of that row: the row fixes the family and the discriminator, and
these fix the decoder's arm. -/
theorem exists_decodeWord_of_row {op : Word} {i : Instr} (row : op &&& (maskAndMatch i).1 = (maskAndMatch i).2) :
    ∃ j, decodeWord op = some j ∧ maskAndMatch j = maskAndMatch i := by
  cases i <;>
    simp [maskAndMatch, and_F000_eq_iff, and_F00F_eq_iff, and_F0FF_eq_iff] at row <;>
    simp [decodeWord, decodeFamily0, decodeFamily8, decodeFamilyE, decodeFamilyF, row, maskAndMatch]

/-- Settles O4: the decoder reads a row's instruction only from a word of that row, and every word of a row decodes. -/
theorem decodeAgreesWithMaskAndMatch : Obligations.DecodeAgreesWithMaskAndMatch :=
  ⟨fun _ _ h => (readFrom_of_decodeWord h).1, fun _ _ => exists_decodeWord_of_row⟩

/-- The ignored bits of a canonical word by family: x in 0, the low nibble in 5 and 9, y of SHR and SHL (30_encoding
R85). -/
theorem ignoredBits_of_canonicalWord {op : Word} (h : canonicalWord op = true) :
    ((fieldFam op).toNat = 0x0 → fieldX op = 0) ∧
    ((fieldFam op).toNat = 0x5 ∨ (fieldFam op).toNat = 0x9 → fieldN op = 0) ∧
    ((fieldFam op).toNat = 0x8 → (fieldN op).toNat = 0x6 ∨ (fieldN op).toNat = 0xE → fieldY op = 0) := by
  unfold canonicalWord at h
  unfold fieldFam fieldX fieldN fieldY
  refine ⟨fun hf => ?_, ?_, fun hf => ?_⟩
  · simpa [hf] using h
  · rintro (hf | hf) <;> simpa [hf] using h
  · rintro (hn | hn) <;> simpa [hf, hn] using h

/-- A canonical word is packed again from what was read from it: the row gives family and discriminator, the operands
the fields read, and the bits not read are 0. -/
theorem encode_eq_of_readFrom {op : Word} {i : Instr} (h : i.readFrom op) (hc : canonicalWord op = true) :
    encode i = op := by
  obtain ⟨row, operands⟩ := h
  obtain ⟨hx, hn, hy⟩ := ignoredBits_of_canonicalWord hc
  cases i
  case jp | call | ldI | jpV0 =>
    simp_all [encode, packNnn_eq_iff, maskAndMatch, and_F000_eq_iff, Instr.fields, BitVec.toNat_eq (n := 4)]
  case seKk | sneKk | ldKk | addKk | rnd =>
    simp_all [encode, packXkk_eq_iff, maskAndMatch, and_F000_eq_iff, Instr.fields, BitVec.toNat_eq (n := 4)]
  case seVy | sneVy | drw =>
    simp_all [encode, packXyn_eq_iff, maskAndMatch, and_F000_eq_iff, Instr.fields, BitVec.toNat_eq (n := 4)]
  case ldVy | orVy | andVy | xorVy | addVy | subVy | shrVx | subnVy | shlVx =>
    simp_all [encode, packXyn_eq_iff, maskAndMatch, and_F00F_eq_iff, Instr.fields, BitVec.toNat_eq (n := 4)]
  all_goals
    simp_all [encode, packXkk_eq_iff, maskAndMatch, and_F0FF_eq_iff, Instr.fields, BitVec.toNat_eq (n := 4),
      BitVec.toNat_eq (n := 8)]

/-- Settles O3: what a word decodes to was read from it. -/
theorem encodeOfDecodeIsTheCanonicalWord : Obligations.EncodeOfDecodeIsTheCanonicalWord :=
  fun _ _ h hc => encode_eq_of_readFrom (readFrom_of_decodeWord h) hc

/-! ### The unknown words (spec/30_encoding.md R90, R91) -/

/-- Family 0 knows the two low bytes of CLS and RET. -/
theorem decodeFamily0_eq_none_iff (op : Word) : decodeFamily0 op = none ↔ op.toNat % 256 ∉ [0xE0, 0xEE] := by
  rw [← toNat_fieldKk, decodeFamily0]
  split <;> simp_all

/-- Family 8 does not know seven of the sixteen low nibbles. -/
theorem decodeFamily8_eq_none_iff (op : Word) :
    decodeFamily8 op = none ↔ op.toNat % 16 ∈ [0x8, 0x9, 0xA, 0xB, 0xC, 0xD, 0xF] := by
  have hlt : (fieldN op).toNat < 16 := (fieldN op).isLt
  rw [← toNat_fieldN, decodeFamily8]
  interval_cases (fieldN op).toNat <;> simp

/-- Family E knows the two low bytes of SKP and SKNP. -/
theorem decodeFamilyE_eq_none_iff (op : Word) : decodeFamilyE op = none ↔ op.toNat % 256 ∉ [0x9E, 0xA1] := by
  rw [← toNat_fieldKk, decodeFamilyE]
  split <;> simp_all

/-- Family F knows nine low bytes. -/
theorem decodeFamilyF_eq_none_iff (op : Word) : decodeFamilyF op = none ↔
    op.toNat % 256 ∉ [0x07, 0x0A, 0x15, 0x18, 0x1E, 0x29, 0x33, 0x55, 0x65] := by
  rw [← toNat_fieldKk, decodeFamilyF]
  split <;> simp_all

/-- Only a family with a secondary discriminator has unknown words (30_encoding R84). -/
theorem decodeWord_eq_none_iff (op : Word) : decodeWord op = none ↔
    (op.toNat / 4096 = 0 ∧ decodeFamily0 op = none) ∨ (op.toNat / 4096 = 8 ∧ decodeFamily8 op = none) ∨
    (op.toNat / 4096 = 14 ∧ decodeFamilyE op = none) ∨ (op.toNat / 4096 = 15 ∧ decodeFamilyF op = none) := by
  have hlt : (fieldFam op).toNat < 16 := (fieldFam op).isLt
  rw [← toNat_fieldFam, decodeWord]
  interval_cases (fieldFam op).toNat <;> simp

/-- Settles O5, family by family. -/
theorem unknownWordsAreExactlyTheListed : Obligations.UnknownWordsAreExactlyTheListed := by
  intro op
  rw [decodeWord_eq_none_iff, decodeFamily0_eq_none_iff, decodeFamily8_eq_none_iff, decodeFamilyE_eq_none_iff,
    decodeFamilyF_eq_none_iff]

/-- Settles O1: the decoder computes on each of the thirteen words. -/
theorem writtenOutWordsDecode : Obligations.WrittenOutWordsDecode := by
  unfold Obligations.WrittenOutWordsDecode
  decide

end Sys2Proof

namespace Sys2Proof.Machine

/-! ### A STEP phase by phase (spec/40_step_cycle.md R110 to R116, R120, R121) -/

/-- Settles O10: each of the four host operations answers a next state. -/
theorem everyStepAnswersANextState : Obligations.EveryStepAnswersANextState :=
  fun s => perform_total s.currentOp s.consumeOp

/-- Where the host's operation is a STEP, the step is the cycle on the sampled inputs (10_state R40, 40_step R112). -/
theorem step_of_currentOp_step {s : State} {k : BitVec 16} {b : Byte} (h : s.currentOp = .step k b) :
    step s = cycle (s.consumeOp.sample k b) := by
  rw [step, h, perform]

/-- Issuing the operation and sampling the inputs leave what is fetched (40_step R111, R112). -/
@[simp] theorem State.fetch_sample_consumeOp (s : State) (k : BitVec 16) (b : Byte) :
    (s.consumeOp.sample k b).fetch = s.fetch := by
  simp only [State.fetch, State.sample_pc, State.sample_mem, State.consumeOp_pc, State.consumeOp_mem]

/-- The state an instruction starts from: operation issued, inputs sampled, PC advanced (40_step R112, R113). -/
theorem State.advance_sample_consumeOp (s : State) (k : BitVec 16) (b : Byte) :
    (s.consumeOp.sample k b).advance = { s.consumeOp with keys := k, rnd := b, pc := s.pc + 2 } := by
  rw [State.advance, State.sample_pc, State.consumeOp_pc]; rfl

/-- A STEP whose word decodes executes the instruction on the advanced state (40_step R114, R115). -/
theorem cycle_of_decodeWord_some {s : State} {op : Word} {i : Instr} (hf : s.fetch = some op)
    (hd : decodeWord op = some i) : cycle s = exec i s.advance := by
  simp only [cycle, hf, hd]

/-- A STEP whose word is unknown reports the word on the advanced state (40_step R116). -/
theorem cycle_of_decodeWord_none {s : State} {op : Word} (hf : s.fetch = some op) (hd : decodeWord op = none) :
    cycle s = .next { s.advance with result := .fault (.unknownOpcode op) } := by
  simp only [cycle, hf, hd, State.raise_eq]

/-- A step whose word decodes executes the instruction with the inputs sampled and PC advanced (40_step R110). -/
theorem step_of_decodeWord_some {s : State} {k : BitVec 16} {b : Byte} {op : Word} {i : Instr}
    (hop : s.currentOp = .step k b) (hf : s.fetch = some op) (hd : decodeWord op = some i) :
    step s = exec i { s.consumeOp with keys := k, rnd := b, pc := s.pc + 2 } := by
  rw [step_of_currentOp_step hop, cycle_of_decodeWord_some ((s.fetch_sample_consumeOp k b).trans hf) hd,
    State.advance_sample_consumeOp]

/-- Settles O6: the two bytes are the fetched word, and they decode as it does. -/
theorem stepRunsTheDecodedInstruction : Obligations.StepRunsTheDecodedInstruction :=
  fun s _ _ _ hop hpc hd => step_of_decodeWord_some hop (s.fetch_of_le hpc) ((decode_pair_instr _ _ _).1 hd)

/-- Settles O9: the cycle's report of an unknown word, from the state the STEP began with. -/
theorem unknownWordIsReportedWithPcAdvanced : Obligations.UnknownWordIsReportedWithPcAdvanced := by
  intro s k b op hop hf hd
  rw [step_of_currentOp_step hop, cycle_of_decodeWord_none ((s.fetch_sample_consumeOp k b).trans hf) hd,
    State.advance_sample_consumeOp]

/-- Settles O57: the word decodes to the jump, which sets PC back to where it was fetched. -/
theorem selfJumpIsAFixedPoint : Obligations.SelfJumpIsAFixedPoint := by
  intro s k b a hop hpc hf
  have target : a.zext = s.consumeOp.pc := (s.consumeOp_pc.trans hpc).symm
  rw [step_of_decodeWord_some hop hf (decodeWord_encode (.jp a)), exec, execJp, State.done_eq, target]

/-! ### PC after each instruction (spec/40_step_cycle.md R119) -/

/-- The key SKP and SKNP test is Vx modulo 16 (45_keys R227). -/
theorem keyIndex_eq_mod (b : Byte) : keyIndex b = b.toNat % 16 := by
  rw [keyIndex, BitVec.extractLsb'_toNat, Nat.shiftRight_zero]

/-- A skip adds 2 exactly when its condition holds (41_flow R131). -/
theorem pc_of_skipIf_done {s t : State} {c : Bool} (h : (s.skipIf c).done = .next t) :
    t.pc = if c then s.pc + 2 else s.pc := by
  obtain rfl := (State.done_next _ _).1 h
  exact s.skipIf_pc c

/-- Settles O52: PC is kept by an instruction that `writtenParts` does not list for it; the others one by one. -/
theorem pcAfterEachInstruction : Obligations.PcAfterEachInstruction := by
  intro i s t h
  by_cases hw : .pc ∈ writtenParts i
  case neg =>
    have kept : t.pc = s.pc := exec_same h .pc hw
    cases i <;> simp [writtenParts] at hw <;> exact kept
  case pos =>
    cases i <;> simp [writtenParts] at hw
    case jp | jpV0 => cases h; rfl
    case seKk | sneKk | seVy | sneVy => simpa using pc_of_skipIf_done h
    case skp x => simpa [State.keyDown, keyIndex_eq_mod] using pc_of_skipIf_done h
    case sknp x =>
      have skipped := pc_of_skipIf_done h
      rw [State.keyDown, keyIndex_eq_mod] at skipped
      cases hd : s.keys.getLsbD ((s.getV x).toNat % 16) <;> simpa [hd] using skipped
    case call nnn =>
      rcases execCall_cases nnn s with ⟨h0, e⟩ | ⟨h0, _, e⟩ <;> cases h.symm.trans e
      · exact (if_pos h0).symm
      · exact (if_neg (Nat.ne_of_lt h0)).symm
    case ret =>
      rcases execRet_cases s with ⟨h0, e⟩ | ⟨h0, h16, _, e⟩ <;> cases h.symm.trans e
      · exact (if_pos h0).symm
      · simp [Nat.ne_of_gt h0, h16]
    case ldVxK x =>
      rcases execLdVxK_cases x s with ⟨h0, e⟩ | ⟨k, h0, e⟩ <;> cases h.symm.trans e
      · exact (if_pos (s.selectedKey_none.1 h0)).symm
      · have pressed : s.keys ≠ 0 := fun hz => by simp [s.selectedKey_none.2 hz] at h0
        exact (if_neg pressed).symm

/-! ### Who reads the inputs of a STEP (spec/40_step_cycle.md R112) -/

/-- The instructions that use the key inputs. -/
def readsKeys : Instr → Prop
  | .skp _ | .sknp _ | .ldVxK _ => True
  | _ => False

/-- The instruction that uses the random byte. -/
def readsRnd : Instr → Prop
  | .rnd _ _ => True
  | _ => False

/-! Reads of memory and registers do not see the sample; a store, a push and a pop carry it along. -/

section sample
variable (s : State) (k : BitVec 16) (b : Byte)

theorem State.memRead_sample (a n : Nat) : (s.sample k b).memRead a n = s.memRead a n := rfl

theorem State.firstRegs_sample (x : Nibble) : (s.sample k b).firstRegs x = s.firstRegs x := rfl

theorem State.memWrite_sample (a : Nat) (bs : List Byte) :
    (s.sample k b).memWrite a bs = (s.memWrite a bs).map (fun t => t.sample k b) := by
  unfold State.memWrite
  split <;> rfl

theorem State.push_sample : (s.sample k b).push = s.push.map (fun t => t.sample k b) := by
  rcases s.push_cases with ⟨h, e⟩ | ⟨h, h17, e⟩ <;> rw [e]
  · exact State.push_full _ (Nat.not_lt.2 (Nat.le_of_eq h.symm))
  · exact State.push_of_lt (s.sample k b) h

theorem State.pop_sample : (s.sample k b).pop = s.pop.map (fun t => t.sample k b) := by
  rcases s.pop_cases with ⟨h, e⟩ | ⟨h, h16, h17, e⟩ <;> rw [e]
  · exact State.pop_empty _ h
  · exact State.pop_of_pos (s.sample k b) h

end sample

/-- An instruction runs alike on another sample of the STEP's inputs, as long as the sample changes no input the
instruction uses (40_step R112). -/
theorem exec_sample {i : Instr} {s : State} {k : BitVec 16} {b : Byte} (hk : readsKeys i → k = s.keys)
    (hb : readsRnd i → b = s.rnd) : exec i (s.sample k b) = mapNext (fun t => t.sample k b) (exec i s) := by
  have skip : ∀ c : Bool, ((s.sample k b).skipIf c).done = mapNext (fun t => t.sample k b) (s.skipIf c).done :=
    fun c => by cases c <;> rfl
  cases i <;> simp only [exec]
  case seKk | sneKk | seVy | sneVy => exact skip _
  case skp | sknp => obtain rfl := hk trivial; exact skip _
  case ldVxK x =>
    obtain rfl := hk trivial
    rcases execLdVxK_cases x s with ⟨h, e⟩ | ⟨j, h, e⟩ <;> rw [e]
    · exact execLdVxK_of_none x (s.sample s.keys b) h
    · exact execLdVxK_of_some x (s.sample s.keys b) j h
  case rnd => obtain rfl := hb trivial; rfl
  case ret =>
    rw [execRet, execRet, State.pop_sample]
    cases s.pop <;> rfl
  case call nnn =>
    rw [execCall, execCall, State.push_sample]
    cases s.push <;> rfl
  case drw x y n =>
    rw [execDrw, execDrw, State.memRead_sample, State.sample_i]
    cases s.memRead s.i.toNat n.toNat <;> rfl
  case loadRegs x =>
    rw [execLoadRegs, execLoadRegs, State.memRead_sample, State.sample_i]
    cases s.memRead s.i.toNat (x.toNat + 1) <;> rfl
  case ldBVx x =>
    rw [execLdBVx, execLdBVx, State.memWrite_sample, State.sample_i, State.getV_sample]
    cases s.memWrite s.i.toNat (decimalDigits (s.getV x)) <;> rfl
  case storeRegs x =>
    rw [execStoreRegs, execStoreRegs, State.memWrite_sample, State.sample_i, State.firstRegs_sample]
    cases s.memWrite s.i.toNat (s.firstRegs x) <;> rfl
  all_goals rfl

/-- No instruction changes the sample of the STEP (40_step R112). -/
theorem exec_keeps_sample {i : Instr} {s t : State} (h : exec i s = .next t) : t.keys = s.keys ∧ t.rnd = s.rnd := by
  have host : Part.host ∉ writtenParts i := by cases i <;> simp [writtenParts]
  obtain ⟨hkeys, hrnd, -, -⟩ := exec_same h .host host
  exact ⟨hkeys, hrnd⟩

/-- Settles O53: a change of one input is a sample that agrees in the other. -/
theorem inputsAreReadOnlyByTheirInstructions : Obligations.InputsAreReadOnlyByTheirInstructions := by
  intro i s t k b h
  obtain ⟨hkeys, hrnd⟩ := exec_keeps_sample h
  refine ⟨fun hi => ?_, fun hi => ?_, hkeys, hrnd⟩
  · have unread : ¬ readsKeys i := by cases i <;> simp [readsKeys] at hi ⊢
    calc exec i (s.sample k s.rnd)
        = mapNext (fun u => u.sample k s.rnd) (exec i s) := exec_sample (absurd · unread) (fun _ => rfl)
      _ = .next { t with keys := k } := by rw [h, ← hrnd]; rfl
  · have unread : ¬ readsRnd i := by cases i <;> simp [readsRnd] at hi ⊢
    calc exec i (s.sample s.keys b)
        = mapNext (fun u => u.sample s.keys b) (exec i s) := exec_sample (fun _ => rfl) (absurd · unread)
      _ = .next { t with rnd := b } := by rw [h, ← hkeys]; rfl

/-! ### Faults of instructions (spec/40_step_cycle.md R115, spec/60_exceptions.md R240, R248) -/

/-- The one fault an instruction can raise (60_exceptions R240). -/
def possibleFault : Instr → Option CoreFault
  | .call _ => some .stackOverflow
  | .ret => some .stackUnderflow
  | .drw _ _ _ | .ldBVx _ | .storeRegs _ | .loadRegs _ => some .addressOutOfRange
  | _ => none

/-- An instruction raises its fault with nothing else changed, or ends without a fault (60_exceptions R248). -/
theorem exec_faults_or_completes (i : Instr) (s : State) :
    (∃ f, possibleFault i = some f ∧ exec i s = .next { s with result := .fault f }) ∨
    (∃ t, exec i s = .next t ∧ t.faultFree = true) := by
  cases i
  case ret => exact (execRet_cases s).imp (fun ⟨_, e⟩ => ⟨_, rfl, e⟩) (fun ⟨_, _, _, e⟩ => ⟨_, e, rfl⟩)
  case call nnn => exact (execCall_cases nnn s).imp (fun ⟨_, e⟩ => ⟨_, rfl, e⟩) (fun ⟨_, _, e⟩ => ⟨_, e, rfl⟩)
  case ldBVx x => exact (execLdBVx_cases x s).imp (fun ⟨_, e⟩ => ⟨_, rfl, e⟩) (fun ⟨_, e⟩ => ⟨_, e, rfl⟩)
  case storeRegs x => exact (execStoreRegs_cases x s).imp (fun ⟨_, e⟩ => ⟨_, rfl, e⟩) (fun ⟨_, e⟩ => ⟨_, e, rfl⟩)
  case loadRegs x => exact (execLoadRegs_cases x s).imp (fun ⟨_, e⟩ => ⟨_, rfl, e⟩) (fun ⟨_, e⟩ => ⟨_, e, rfl⟩)
  case drw x y n => exact (execDrw_cases x y n s).imp (fun ⟨_, e⟩ => ⟨_, rfl, e⟩) (fun ⟨_, e⟩ => ⟨_, e, rfl⟩)
  case ldVxK x =>
    rcases execLdVxK_cases x s with ⟨-, e⟩ | ⟨_, -, e⟩
    · exact .inr ⟨_, e, rfl⟩
    · exact .inr ⟨_, e, rfl⟩
  all_goals exact .inr ⟨_, State.done_eq _, rfl⟩

/-- Settles O56: an instruction that did not complete raised its one fault. -/
theorem faultsChangeNothingAndComeOnlyFromTheNamed : Obligations.FaultsChangeNothingAndComeOnlyFromTheNamed := by
  intro i s t f h hf
  rcases exec_faults_or_completes i s with ⟨g, hg, e⟩ | ⟨u, e, free⟩ <;> cases h.symm.trans e
  · cases hf
    refine ⟨rfl, ?_⟩
    cases i <;> cases hg <;> rfl
  · simp [State.faultFree, hf] at free

end Sys2Proof.Machine

namespace Sys2Proof.Machine

/-! ### Control transfers (spec/41_flow.md) -/

/-- What an instruction leaves unchanged, by the list of the parts it may write (10_state R20). -/
theorem exec_keepsAllBut {i : Instr} {s t : State} (h : exec i s = .next t) : s.keepsAllBut (writtenParts i) t :=
  fun p hp => (exec_same h p hp).kept

/-- A part two operations keep one after the other is kept by them together. -/
theorem State.kept.trans {s t u : State} {p : Part} (hst : s.kept t p) (htu : t.kept u p) : s.kept u p := by
  cases p
  case regs => exact fun r => (htu r).trans (hst r)
  case screen => exact fun y x => (htu y x).trans (hst y x)
  case mem => exact fun a => (htu a).trans (hst a)
  case stack =>
    obtain ⟨sp, stack⟩ := hst
    obtain ⟨sp', stack'⟩ := htu
    exact ⟨sp'.trans sp, stack'.trans stack⟩
  case host =>
    obtain ⟨keys, rnd, script, draws⟩ := hst
    obtain ⟨keys', rnd', script', draws'⟩ := htu
    exact ⟨keys'.trans keys, rnd'.trans rnd, script'.trans script, draws'.trans draws⟩
  case index | pc | delay | sound => exact Eq.trans htu hst

/-- `zext_16` keeps the number (00_scope R11). -/
theorem Addr.toNat_zext (nnn : Addr) : nnn.zext.toNat = nnn.toNat :=
  BitVec.toNat_setWidth_of_le (by decide)

/-- The target of `JP V0,nnn` as a number: the sum fits 16 bits (41_flow R138). -/
theorem toNat_offsetTarget (v0 : Byte) (nnn : Addr) : (offsetTarget v0 nnn).toNat = v0.toNat + nnn.toNat := by
  simp only [offsetTarget, Byte.zext, Addr.zext]
  bv_omega

/-- Settles O11: the target is the address field, widened to a word. -/
theorem jumpSetsPc : Obligations.JumpSetsPc := by
  intro nnn s
  have jumps : exec (.jp nnn) s = .next { s with pc := nnn.zext, result := .ok } := State.done_eq _
  exact ⟨_, jumps, Addr.toNat_zext nnn, rfl, exec_keepsAllBut jumps⟩

/-- Settles O12: the target is `offsetTarget`, whose sum does not wrap. -/
theorem jumpWithOffsetAddsV0 : Obligations.JumpWithOffsetAddsV0 := by
  intro nnn s
  have jumps : exec (.jpV0 nnn) s = .next { s with pc := offsetTarget (s.getV 0) nnn, result := .ok } :=
    State.done_eq _
  exact ⟨_, jumps, toNat_offsetTarget _ _, rfl, exec_keepsAllBut jumps⟩

/-- Settles O13: the end of CALL with a free slot is `execCall_of_lt`. -/
theorem callPushesTheReturnAddress : Obligations.CallPushesTheReturnAddress := by
  intro nnn s hfree
  have calls := execCall_of_lt nnn s hfree (Nat.succ_lt_succ hfree)
  refine ⟨_, calls, Addr.toNat_zext nnn, rfl, fun k hk => ?_, rfl, exec_keepsAllBut (i := .call nnn) calls⟩
  simp only [Vector.getElem_set, eq_comm]

/-- Settles O15: the end of RET with an entry on the stack is `execRet_of_pos`. -/
theorem returnPopsIntoPc : Obligations.ReturnPopsIntoPc := by
  intro s hpos
  have returns := execRet_of_pos s hpos (by omega) (by omega)
  exact ⟨_, returns, rfl, fun _ => rfl, rfl, rfl, exec_keepsAllBut (i := .ret) returns⟩

/-- Settles O17: CALL leaves an entry for RET to pop, the old PC at the old SP, and touches no slot below it; what neither
writes is kept by both. -/
theorem returnUndoesCall : Obligations.ReturnUndoesCall := by
  intro nnn s hfree
  obtain ⟨t, calls, -, hsp, hslots, -, callKeeps⟩ := callPushesTheReturnAddress nnn s hfree
  obtain ⟨u, returns, hsp', hpc', hstack', -, retKeeps⟩ := returnPopsIntoPc t (by omega)
  have top : t.sp.val - 1 = s.sp.val := by omega
  have pcBack : u.pc = s.pc := by
    rw [hpc' (top ▸ hfree), hslots, if_pos top]
  refine ⟨t, u, calls, returns, pcBack, Fin.ext (hsp'.trans top), fun k hk hlt => ?_, fun p hp => ?_⟩
  · simp only [hstack', hslots k hk, if_neg (Nat.ne_of_lt hlt)]
  · by_cases isPc : p = .pc
    · exact isPc ▸ pcBack
    · have unwritten : p ∉ [.pc, .stack] := List.not_mem_cons_of_ne_of_not_mem isPc hp
      exact (callKeeps p unwritten).trans (retKeeps p unwritten)

/-- An instruction that is a skip on a condition: it adds 2 to PC exactly then, ends Ok and writes PC alone
(41_flow R131). -/
theorem exec_of_skipIf {i : Instr} {s : State} {c : Bool} (he : exec i s = (s.skipIf c).done)
    (hw : writtenParts i = [.pc]) : ∃ t, exec i s = .next t ∧
      t.pc = (if c then s.pc + 2 else s.pc) ∧ t.result = .ok ∧ s.keepsAllBut [.pc] t := by
  have skips := he.trans (State.done_eq _)
  exact ⟨_, skips, s.skipIf_pc c, rfl, hw ▸ exec_keepsAllBut skips⟩

/-- Settles O18: each of the four is a skip (`exec_of_skipIf`), and bytes are equal when their numbers are. -/
theorem compareAndSkip : Obligations.CompareAndSkip := by
  refine ⟨fun x kk s => ?_, fun x kk s => ?_, fun x y s => ?_, fun x y s => ?_⟩
  · simpa [BitVec.toNat_inj] using exec_of_skipIf (i := .seKk x kk) (s := s) rfl rfl
  · simpa [BitVec.toNat_inj] using exec_of_skipIf (i := .sneKk x kk) (s := s) rfl rfl
  · simpa [BitVec.toNat_inj] using exec_of_skipIf (i := .seVy x y) (s := s) rfl rfl
  · simpa [BitVec.toNat_inj] using exec_of_skipIf (i := .sneVy x y) (s := s) rfl rfl

end Sys2Proof.Machine

namespace Sys2Proof.Machine

/-! ### ALU and registers (spec/42_alu.md) -/

/-! #### The instructions that write Vx and no flag -/

/-- An instruction whose one register write is byte b to Vx ends Ok, and every other register and part is as it was
(10_state R20, R21). -/
theorem exec_of_setV {i : Instr} {s : State} {x : Nibble} {b : Byte} (he : exec i s = (s.setV x b).done)
    (hw : writtenParts i = [.regs]) : ∃ t, exec i s = .next t ∧
      (∀ r, t.getV r = if r = x then b else s.getV r) ∧ t.result = .ok ∧ s.keepsAllBut [.regs] t := by
  have ends := he.trans (State.done_eq _)
  exact ⟨_, ends, fun r => s.getV_setV x r b, rfl, hw ▸ exec_keepsAllBut ends⟩

/-- `exec_of_setV` with the byte written given bit by bit. -/
theorem exec_of_setV_bits {i : Instr} {s : State} {x : Nibble} {b : Byte} {bit : Nat → Bool}
    (he : exec i s = (s.setV x b).done) (hw : writtenParts i = [.regs]) (hb : ∀ k, b.getLsbD k = bit k) :
    ∃ t, exec i s = .next t ∧ (∀ k, (t.getV x).getLsbD k = bit k) ∧ (∀ r, r ≠ x → t.getV r = s.getV r) ∧
      t.result = .ok ∧ s.keepsAllBut [.regs] t := by
  obtain ⟨t, ends, regs, ok, keeps⟩ := exec_of_setV he hw
  refine ⟨t, ends, fun k => ?_, fun r hr => ?_, ok, keeps⟩
  · rw [regs, if_pos rfl, hb]
  · rw [regs, if_neg hr]

/-- Settles O19: each of the two is one write of Vx. -/
theorem loadImmediateAndCopy : Obligations.LoadImmediateAndCopy :=
  ⟨fun _ _ _ => exec_of_setV rfl rfl, fun _ _ _ => exec_of_setV rfl rfl⟩

/-- Settles O20: one write of Vx, and the sum of two bytes is their sum modulo 256. -/
theorem addImmediateWrapsWithoutFlag : Obligations.AddImmediateWrapsWithoutFlag := by
  intro x kk s
  obtain ⟨t, ends, regs, ok, keeps⟩ := exec_of_setV (i := .addKk x kk) (s := s) rfl rfl
  refine ⟨t, ends, fun r => ?_, ok, keeps⟩
  rw [regs, apply_ite BitVec.toNat, BitVec.toNat_add]

/-- Settles O21: each of the three is one write of Vx, whose bits are those of the operands combined. -/
theorem bitwiseOperations : Obligations.BitwiseOperations := by
  refine ⟨fun x y s => exec_of_setV_bits rfl rfl fun k => ?_, fun x y s => exec_of_setV_bits rfl rfl fun k => ?_,
    fun x y s => exec_of_setV_bits rfl rfl fun k => ?_⟩
  · exact BitVec.getLsbD_or
  · exact BitVec.getLsbD_and
  · rw [BitVec.getLsbD_xor, Bool.eq_iff_iff, bne_iff_ne, decide_eq_true_eq]

/-- Settles O25: one write of Vx with the random byte masked. -/
theorem randomByteIsMasked : Obligations.RandomByteIsMasked :=
  fun _ _ _ => exec_of_setV_bits rfl rfl fun _ => BitVec.getLsbD_and

/-! #### The flag writers: VF first, then Vx (42_alu R164) -/

/-- The registers once the flag is written are the statements' `State.flagged`. -/
theorem State.getV_setFlag_eq_flagged (s : State) (flag : Bool) (r : Nibble) :
    (s.setFlag flag).getV r = s.flagged flag r :=
  s.getV_setFlag flag r

theorem State.flagged_vf (s : State) (flag : Bool) : s.flagged flag 0xF = if flag then 1 else 0 := if_pos rfl

theorem State.flagged_of_ne (s : State) (flag : Bool) {r : Nibble} (hr : r ≠ 0xF) :
    s.flagged flag r = s.getV r := if_neg hr

/-- The instruction ends Ok, with a flag in VF, then byte b in Vx, and every other register and part as it was
(42_alu R164). -/
def flagsThenWrites (i : Instr) (s : State) (flag : Bool) (x : Nibble) (b : Byte) : Prop :=
  ∃ t, exec i s = .next t ∧ t.result = .ok ∧ s.keepsAllBut [.regs] t ∧
    ∀ r, t.getV r = if r = x then b else s.flagged flag r

theorem flagsThenWrites_of_done {i : Instr} {s : State} {flag : Bool} {x : Nibble} {b : Byte}
    (he : exec i s = ((s.setFlag flag).setV x b).done) (hw : writtenParts i = [.regs]) :
    flagsThenWrites i s flag x b := by
  have ends := he.trans (State.done_eq _)
  refine ⟨_, ends, rfl, hw ▸ exec_keepsAllBut ends, fun r => ?_⟩
  rw [State.getV_update, State.getV_setV, State.getV_setFlag_eq_flagged]

/-- SHR's flag as a number: the byte is odd (42_alu R158). -/
theorem shiftedOutLow_eq (a : Byte) : shiftedOutLow a = decide (a.toNat % 2 = 1) :=
  Nat.testBit_zero a.toNat

/-- SHL's flag as a number: the byte is 128 or more (42_alu R160). -/
theorem shiftedOutHigh_eq (a : Byte) : shiftedOutHigh a = decide (128 ≤ a.toNat) :=
  (BitVec.msb_eq_getLsbD_last a).symm.trans (BitVec.msb_eq_decide a)

/-- `ADD Vx,Vy` (42_alu R156). -/
theorem addVy_flagsThenWrites (x y : Nibble) (s : State) :
    flagsThenWrites (.addVy x y) s (decide (255 < (s.getV x).toNat + (s.getV y).toNat)) x (s.getV x + s.getV y) :=
  flagsThenWrites_of_done rfl rfl

/-- `SUB Vx,Vy` (42_alu R157). -/
theorem subVy_flagsThenWrites (x y : Nibble) (s : State) :
    flagsThenWrites (.subVy x y) s (decide ((s.getV y).toNat < (s.getV x).toNat)) x
      (s.flagged (decide ((s.getV y).toNat < (s.getV x).toNat)) x
        - s.flagged (decide ((s.getV y).toNat < (s.getV x).toNat)) y) := by
  simp only [← State.getV_setFlag_eq_flagged]
  exact flagsThenWrites_of_done rfl rfl

/-- `SHR Vx` (42_alu R158). -/
theorem shrVx_flagsThenWrites (x : Nibble) (s : State) :
    flagsThenWrites (.shrVx x) s (decide ((s.getV x).toNat % 2 = 1)) x
      (s.flagged (decide ((s.getV x).toNat % 2 = 1)) x >>> 1) := by
  simp only [← State.getV_setFlag_eq_flagged, ← shiftedOutLow_eq]
  exact flagsThenWrites_of_done rfl rfl

/-- `SUBN Vx,Vy` (42_alu R159). -/
theorem subnVy_flagsThenWrites (x y : Nibble) (s : State) :
    flagsThenWrites (.subnVy x y) s (decide ((s.getV x).toNat < (s.getV y).toNat)) x
      (s.flagged (decide ((s.getV x).toNat < (s.getV y).toNat)) y
        - s.flagged (decide ((s.getV x).toNat < (s.getV y).toNat)) x) := by
  simp only [← State.getV_setFlag_eq_flagged]
  exact flagsThenWrites_of_done rfl rfl

/-- `SHL Vx` (42_alu R160). -/
theorem shlVx_flagsThenWrites (x : Nibble) (s : State) :
    flagsThenWrites (.shlVx x) s (decide (128 ≤ (s.getV x).toNat)) x
      (s.flagged (decide (128 ≤ (s.getV x).toNat)) x <<< 1) := by
  simp only [← State.getV_setFlag_eq_flagged, ← shiftedOutHigh_eq]
  exact flagsThenWrites_of_done rfl rfl

section
variable {i : Instr} {s : State} {flag : Bool} {x : Nibble} {b : Byte}

/-- The registers after a flag writer, as numbers. -/
theorem flagsThenWrites.toNat (h : flagsThenWrites i s flag x b) {n : Nat} (hn : b.toNat = n) :
    ∃ t, exec i s = .next t ∧ t.result = .ok ∧ s.keepsAllBut [.regs] t ∧
      ∀ r, (t.getV r).toNat = if r = x then n else (s.flagged flag r).toNat := by
  obtain ⟨t, ends, ok, keeps, regs⟩ := h
  refine ⟨t, ends, ok, keeps, fun r => ?_⟩
  rw [regs, apply_ite BitVec.toNat, hn]

/-- The destination of a flag writer, VF included (42_alu R164). -/
theorem flagsThenWrites.dest (h : flagsThenWrites i s flag x b) : ∃ t, exec i s = .next t ∧ t.getV x = b := by
  obtain ⟨t, ends, -, -, regs⟩ := h
  exact ⟨t, ends, (regs x).trans (if_pos rfl)⟩

/-- VF and the destination of a flag writer, where the two differ (42_alu R163). -/
theorem flagsThenWrites.vf_and_dest (h : flagsThenWrites i s flag x b) (hx : x ≠ 0xF) :
    ∃ t, exec i s = .next t ∧ t.getV 0xF = (if flag then 1 else 0) ∧ t.getV x = b := by
  obtain ⟨t, ends, -, -, regs⟩ := h
  refine ⟨t, ends, ?_, (regs x).trans (if_pos rfl)⟩
  rw [regs, if_neg hx.symm, State.flagged_vf]

end

/-- The difference of two bytes as a number. -/
theorem Byte.toNat_sub (a b : Byte) : (a - b).toNat = (a.toNat + 256 - b.toNat) % 256 := by
  bv_omega

/-- A logical shift right by one halves the byte. -/
theorem Byte.toNat_shiftRight_one (a : Byte) : (a >>> 1).toNat = a.toNat / 2 := by
  rw [BitVec.toNat_ushiftRight, Nat.shiftRight_one]

/-- A shift left by one doubles the byte modulo 256. -/
theorem Byte.toNat_shiftLeft_one (a : Byte) : (a <<< 1).toNat = a.toNat * 2 % 256 := by
  rw [BitVec.toNat_shiftLeft, Nat.shiftLeft_eq]

/-- Settles O22: each flag writer's end, with its result as a number. -/
theorem flagWritersRunInStatementOrder : Obligations.FlagWritersRunInStatementOrder :=
  ⟨fun x y s => (addVy_flagsThenWrites x y s).toNat (BitVec.toNat_add _ _),
    fun x y s => (subVy_flagsThenWrites x y s).toNat (Byte.toNat_sub _ _),
    fun x s => (shrVx_flagsThenWrites x s).toNat (Byte.toNat_shiftRight_one _),
    fun x y s => (subnVy_flagsThenWrites x y s).toNat (Byte.toNat_sub _ _),
    fun x s => (shlVx_flagsThenWrites x s).toNat (Byte.toNat_shiftLeft_one _)⟩

/-- The flag of a condition as a number. -/
theorem toNat_flag (p : Prop) [Decidable p] :
    (if decide p = true then 1 else 0 : Byte).toNat = if p then 1 else 0 := by
  by_cases hp : p <;> simp [hp]

/-- An instruction leaves a register that it does not write as it was. -/
theorem exec_keeps_getV (i : Instr) (s : State) {r : Nibble} (hr : ¬ writesReg i r) :
    ∃ t, exec i s = .next t ∧ t.getV r = s.getV r := by
  obtain ⟨t, ends⟩ := exec_total i s
  exact ⟨t, ends, exec_getV_kept ends r hr⟩

/-- SUB and SUBN, the operands not VF: the flag is the strict comparison, and equal operands give flag and result 0
(42_alu R163). -/
theorem flagsThenWrites.of_sub {i : Instr} {s : State} {x : Nibble} {a b : Byte}
    (h : flagsThenWrites i s (decide (b.toNat < a.toNat)) x (a - b)) (hx : x ≠ 0xF) :
    ∃ t, exec i s = .next t ∧ (t.getV 0xF).toNat = (if b.toNat < a.toNat then 1 else 0) ∧
      (a.toNat = b.toNat → (t.getV 0xF).toNat = 0 ∧ (t.getV x).toNat = 0) := by
  obtain ⟨t, ends, flag, result⟩ := h.vf_and_dest hx
  have flag' := (congrArg BitVec.toNat flag).trans (toNat_flag _)
  refine ⟨t, ends, flag', fun heq => ⟨?_, ?_⟩⟩
  · rw [flag', if_neg (by omega)]
  · rw [result, BitVec.eq_of_toNat_eq heq, BitVec.sub_self]; rfl

/-- Settles O23: where no operand is VF, the flag written first changes neither operand and is what VF holds at the
end. -/
theorem flagConvention : Obligations.FlagConvention := by
  intro x y s hx hy
  have add := addVy_flagsThenWrites x y s
  have sub := subVy_flagsThenWrites x y s
  have subn := subnVy_flagsThenWrites x y s
  have shr := shrVx_flagsThenWrites x s
  have shl := shlVx_flagsThenWrites x s
  simp only [State.flagged_of_ne _ _ hx, State.flagged_of_ne _ _ hy] at sub subn shr shl
  refine ⟨?add, sub.of_sub hx, ?subn, ?shr, ?shl, fun kk => exec_keeps_getV _ s hx.symm, exec_keeps_getV _ s hx.symm,
    exec_keeps_getV _ s hx.symm, exec_keeps_getV _ s hx.symm⟩
  case add =>
    obtain ⟨t, ends, flag, -⟩ := add.vf_and_dest hx
    exact ⟨t, ends, by rw [flag, toNat_flag]⟩
  case subn => simpa only [eq_comm] using subn.of_sub hx
  case shr =>
    obtain ⟨t, ends, flag, result⟩ := shr.vf_and_dest hx
    refine ⟨t, ends, ?_, by rw [result, Byte.toNat_shiftRight_one]⟩
    rw [flag, toNat_flag]
    split <;> omega
  case shl =>
    obtain ⟨t, ends, flag, result⟩ := shl.vf_and_dest hx
    refine ⟨t, ends, ?_, by rw [result, Byte.toNat_shiftLeft_one]⟩
    rw [flag, toNat_flag]
    split <;> omega

/-- Settles O24: with VF as the destination the result replaces the flag, and with VF as an operand the result is
computed from the flag. -/
theorem vfAsOperandTable : Obligations.VfAsOperandTable := by
  intro x y s hx hy
  refine ⟨(addVy_flagsThenWrites 0xF y s).dest, ?addSource, ?addBoth, ?subDest, ?subSource, ?subBoth, ?subnDest,
    ?subnSource, ?subnBoth, ?shr, ?shl⟩
  case addSource =>
    obtain ⟨t, ends, flag, result⟩ := (addVy_flagsThenWrites x 0xF s).vf_and_dest hx
    exact ⟨t, ends, result, by rw [flag, toNat_flag]⟩
  case addBoth =>
    obtain ⟨t, ends, result⟩ := (addVy_flagsThenWrites 0xF 0xF s).dest
    exact ⟨t, ends, by rw [result, BitVec.toNat_add, Nat.two_mul]⟩
  case subDest =>
    have dest := (subVy_flagsThenWrites 0xF y s).dest
    simpa only [State.flagged_vf, State.flagged_of_ne _ _ hy, decide_eq_true_eq] using dest
  case subnDest =>
    have dest := (subnVy_flagsThenWrites 0xF y s).dest
    simpa only [State.flagged_vf, State.flagged_of_ne _ _ hy, decide_eq_true_eq] using dest
  case subSource =>
    obtain ⟨t, ends, flag, result⟩ := (subVy_flagsThenWrites x 0xF s).vf_and_dest hx
    rw [State.flagged_of_ne _ _ hx, State.flagged_vf, ← flag] at result
    exact ⟨t, ends, by simpa only [decide_eq_true_eq] using flag, result⟩
  case subnSource =>
    obtain ⟨t, ends, flag, result⟩ := (subnVy_flagsThenWrites x 0xF s).vf_and_dest hx
    rw [State.flagged_of_ne _ _ hx, State.flagged_vf, ← flag] at result
    exact ⟨t, ends, by simpa only [decide_eq_true_eq] using flag, result⟩
  case subBoth => simpa only [BitVec.sub_self, BitVec.ofNat_eq_ofNat] using (subVy_flagsThenWrites 0xF 0xF s).dest
  case subnBoth => simpa only [BitVec.sub_self, BitVec.ofNat_eq_ofNat] using (subnVy_flagsThenWrites 0xF 0xF s).dest
  case shr =>
    obtain ⟨t, ends, result⟩ := (shrVx_flagsThenWrites 0xF s).dest
    refine ⟨t, ends, ?_⟩
    rw [result, State.flagged_vf]
    split <;> rfl
  case shl =>
    obtain ⟨t, ends, result⟩ := (shlVx_flagsThenWrites 0xF s).dest
    refine ⟨t, ends, ?_⟩
    rw [result, State.flagged_vf, Byte.toNat_shiftLeft_one, toNat_flag]
    split <;> rfl

end Sys2Proof.Machine

namespace Sys2Proof.Machine

/-! ### Index register and memory (spec/43_index_memory.md) -/

/-! #### The instructions that write I -/

/-- `zext_16` keeps the number of a byte (00_scope R11). -/
theorem Byte.toNat_zext (b : Byte) : b.zext.toNat = b.toNat :=
  BitVec.toNat_setWidth_of_le (by decide)

/-- The glyph address of every byte fits I (43_index R182). -/
theorem toNat_glyphAddress (b : Byte) : (glyphAddress b).toNat = 0x50 + 5 * b.toNat := by
  have fits : 0x50 + 5 * b.toNat < 2 ^ 16 := by omega
  exact (BitVec.toNat_ofNat _ _).trans (Nat.mod_eq_of_lt fits)

/-- An instruction whose one write is word a to I ends Ok, and every other part is as it was (10_state R20, R23). -/
theorem exec_of_setI {i : Instr} {s : State} {a : Word} {n : Nat} (he : exec i s = State.done { s with i := a })
    (hw : writtenParts i = [.index]) (ha : a.toNat = n) : ∃ t, exec i s = .next t ∧
      t.i.toNat = n ∧ t.result = .ok ∧ s.keepsAllBut [.index] t := by
  have ends := he.trans (State.done_eq _)
  exact ⟨_, ends, ha, rfl, hw ▸ exec_keepsAllBut ends⟩

/-- Settles O26: one write of I, and zero extension keeps the number. -/
theorem loadIndexImmediate : Obligations.LoadIndexImmediate :=
  fun nnn _ => exec_of_setI rfl rfl (Addr.toNat_zext nnn)

/-- Settles O27: one write of I, and the sum of two words is their sum modulo 65536. -/
theorem addRegisterToIndex : Obligations.AddRegisterToIndex := by
  refine fun x s => exec_of_setI rfl rfl ?_
  rw [BitVec.toNat_add, Byte.toNat_zext]

/-- Settles O28: one write of I, and no glyph address wraps. -/
theorem glyphAddressIsComputed : Obligations.GlyphAddressIsComputed :=
  fun x s => exec_of_setI rfl rfl (toNat_glyphAddress (s.getV x))

/-! #### The accesses to memory at I -/

/-- `LD B,Vx` out of range (43_index R183). -/
theorem execLdBVx_outOfRange (x : Nibble) (s : State) (h : 0xFFF < s.i.toNat + 2) :
    execLdBVx x s = .next { s with result := .fault .addressOutOfRange } := by
  obtain ⟨-, faults⟩ | ⟨fits, -⟩ := execLdBVx_cases x s
  · exact faults
  · exact absurd fits (Nat.not_le.2 h)

/-- `LD [I],Vx` out of range (43_index R184). -/
theorem execStoreRegs_outOfRange (x : Nibble) (s : State) (h : 0xFFF < s.i.toNat + x.toNat) :
    execStoreRegs x s = .next { s with result := .fault .addressOutOfRange } := by
  obtain ⟨-, faults⟩ | ⟨fits, -⟩ := execStoreRegs_cases x s
  · exact faults
  · exact absurd fits (Nat.not_le.2 h)

/-- `LD Vx,[I]` out of range (43_index R185). -/
theorem execLoadRegs_outOfRange (x : Nibble) (s : State) (h : 0xFFF < s.i.toNat + x.toNat) :
    execLoadRegs x s = .next { s with result := .fault .addressOutOfRange } := by
  obtain ⟨-, faults⟩ | ⟨fits, -⟩ := execLoadRegs_cases x s
  · exact faults
  · exact absurd fits (Nat.not_le.2 h)

section
variable (s : State) (x : Nibble)

/-- Inside the block of `LD [I],Vx`, byte r is register r (43_index R184). -/
theorem State.byteAfterStore_add {r : Nibble} (hr : r.toNat ≤ x.toNat) :
    s.byteAfterStore x (s.i.toNat + r.toNat) = s.getV r := by
  rw [State.byteAfterStore, if_pos (by omega), Nat.add_sub_cancel_left, BitVec.ofNat_toNat, BitVec.setWidth_eq]

/-- Outside the block of `LD [I],Vx` a byte is what it was (43_index R184). -/
theorem State.byteAfterStore_outside {a : Nat} (ha : a < s.i.toNat ∨ s.i.toNat + x.toNat < a) :
    s.byteAfterStore x a = s.mem.read a :=
  if_neg (by omega)

/-- The three bytes of `LD B,Vx` are the digits of Vx (43_index R183). -/
theorem State.byteAfterDigits_digits :
    s.byteAfterDigits x s.i.toNat = (s.getV x).toNat / 100 ∧
    s.byteAfterDigits x (s.i.toNat + 1) = (s.getV x).toNat / 10 % 10 ∧
    s.byteAfterDigits x (s.i.toNat + 2) = (s.getV x).toNat % 10 := by
  simp [State.byteAfterDigits]

/-- Outside the three bytes of `LD B,Vx` a byte is what it was (43_index R183). -/
theorem State.byteAfterDigits_outside {a : Nat} (ha : a < s.i.toNat ∨ s.i.toNat + 2 < a) :
    s.byteAfterDigits x a = (s.mem.read a).toNat := by
  rw [State.byteAfterDigits, if_neg (by omega), if_neg (by omega), if_neg (by omega)]

end

/-- Settles O29: in range the bytes after the store are `byteAfterDigits`; out of range the check comes before the
store. -/
theorem decimalDigitsAreStored : Obligations.DecimalDigitsAreStored := by
  refine ⟨fun x s fits => ?_, execLdBVx_outOfRange⟩
  have stores := execLdBVx_inRange x s fits
  have reads := fun a => s.toNat_read_writeBytes_decimalDigits x a fits
  obtain ⟨hundreds, tens, ones⟩ := s.byteAfterDigits_digits x
  exact ⟨_, stores, (reads _).trans hundreds, (reads _).trans tens, (reads _).trans ones,
    fun a ha => BitVec.eq_of_toNat_eq ((reads a).trans (s.byteAfterDigits_outside x ha)), rfl,
    exec_keepsAllBut (i := .ldBVx x) stores⟩

/-- Settles O30: in range the bytes after the store are `byteAfterStore`; out of range the check comes before the
store. -/
theorem registerBlockIsStored : Obligations.RegisterBlockIsStored := by
  refine ⟨fun x s fits => ?_, execStoreRegs_outOfRange⟩
  have stores := execStoreRegs_inRange x s fits
  have reads := fun a => s.read_writeBytes_firstRegs x a fits
  exact ⟨_, stores, fun r hr => (reads _).trans (s.byteAfterStore_add x hr),
    fun a ha => (reads a).trans (s.byteAfterStore_outside x ha), rfl, exec_keepsAllBut (i := .storeRegs x) stores⟩

/-- Settles O31: in range byte r of the block read goes to register r; out of range the check comes before the load. -/
theorem registerBlockIsLoaded : Obligations.RegisterBlockIsLoaded := by
  refine ⟨fun x s fits => ?_, execLoadRegs_outOfRange⟩
  have loads := execLoadRegs_inRange x s fits
  refine ⟨_, loads, fun r => ?_, rfl, exec_keepsAllBut (i := .loadRegs x) loads⟩
  by_cases hr : r.toNat ≤ x.toNat
  · rw [if_pos hr, ← Memory.getD_readBytes _ _ _ _ (Nat.lt_succ_of_le hr)]
    exact (s.getV_withFirstRegs x _ r).trans (if_pos hr)
  · rw [if_neg hr]
    exact (s.getV_withFirstRegs x _ r).trans (if_neg hr)

/-- Settles O32: the store keeps I, so the load reads at I + r the byte the store left there, register r. -/
theorem blockLoadRestoresBlockStore : Obligations.BlockLoadRestoresBlockStore := by
  intro x s cleared fits
  obtain ⟨t, stores, block, -, -, keeps⟩ := registerBlockIsStored.1 x s fits
  have sameI : t.i = s.i := keeps .index (by decide)
  obtain ⟨u, loads, regs, -, -⟩ := registerBlockIsLoaded.1 x { t with v := cleared } (by rwa [sameI])
  refine ⟨t, u, stores, loads, fun r hr => ?_⟩
  rw [regs, if_pos hr, sameI, block r hr]

end Sys2Proof.Machine

namespace Sys2Proof.Machine

/-! ### Display (spec/44_display.md) -/

/-- Settles O34: one write of the framebuffer. -/
theorem clearScreenTurnsEveryPixelOff : Obligations.ClearScreenTurnsEveryPixelOff := by
  intro s
  have clears : exec .cls s = .next { s with fb := Framebuffer.clear, result := .ok } := State.done_eq _
  exact ⟨_, clears, fun py px _ _ => Framebuffer.pixel_clear py px, rfl, exec_keepsAllBut clears⟩

/-- Settles O37: out of range `DRW Vx,Vy,n` can only fault. -/
theorem drawOutOfRangeFaults : Obligations.DrawOutOfRangeFaults := by
  intro x y n s rows outside
  obtain ⟨-, faults⟩ | ⟨fits, -⟩ := execDrw_cases x y n s
  · exact faults
  · omega

/-! #### The sprite of the blit is the sprite at I -/

section
variable (s : State) (x y n : Nibble)

/-- On the grid, what the blit covers is what the sprite at I is on (44_display R202, R203). -/
theorem State.spriteCovers_iff_spriteOn {py px : Nat} (hy : py < 32) (hx : px < 64) :
    spriteCovers (originX (s.getV x)) (originY (s.getV y)) (s.mem.readBytes s.i.toNat n.toNat) py px ↔
      s.spriteOn x y n py px := by
  rw [spriteCovers, Memory.length_readBytes]
  constructor
  · rintro ⟨-, -, r, c, hr, hc, row, col, on⟩
    rw [Memory.getD_readBytes _ _ _ _ hr] at on
    exact ⟨r, c, hr, hc, row, col, on⟩
  · rintro ⟨r, c, hr, hc, row, col, on⟩
    rw [← Memory.getD_readBytes _ _ _ _ hr] at on
    exact ⟨Nat.le_of_lt_succ hy, Nat.le_of_lt_succ hx, r, c, hr, hc, row, col, on⟩

/-- The blit flips exactly the pixels the sprite is on (44_display R201). -/
theorem State.pixel_blit {py px : Nat} (hy : py < 32) (hx : px < 64) :
    (s.blit x y n).fb.pixel py px = true ↔ ¬(s.fb.pixel py px = true ↔ s.spriteOn x y n py px) := by
  rw [(drawRows_spec _ _ _ _).1 py px hy hx, s.spriteCovers_iff_spriteOn x y n hy hx]

/-- The blit notes a collision exactly when some pixel the sprite is on was on before (44_display R204). -/
theorem State.hit_blit : (s.blit x y n).hit = true ↔
    ∃ py px, py < 32 ∧ px < 64 ∧ s.spriteOn x y n py px ∧ s.fb.pixel py px = true := by
  rw [(drawRows_spec _ _ _ _).2, or_iff_right Bool.false_ne_true]
  exact exists₂_congr fun py px => and_congr_right fun hy => and_congr_right fun hx =>
    and_congr_left' (s.spriteCovers_iff_spriteOn x y n hy hx)

end

/-- Settles O35: in range DRW ends with the blit's framebuffer and, VF apart, writes no other part. -/
theorem drawFlipsExactlyTheSpritePixels : Obligations.DrawFlipsExactlyTheSpritePixels := by
  intro x y n s fits
  have draws := execDrw_inRange x y n s fits
  exact ⟨_, draws, fun _ _ => s.pixel_blit x y n, exec_getV_kept (i := .drw x y n) draws, rfl,
    exec_keepsAllBut (i := .drw x y n) draws⟩

/-- Settles O36: in range DRW leaves the blit's collision bit in VF. -/
theorem drawReportsCollisionInVf : Obligations.DrawReportsCollisionInVf := by
  intro x y n s fits
  refine ⟨_, execDrw_inRange x y n s fits, fun collides => ?_, fun misses => ?_⟩ <;>
    rw [State.getV_update, State.getV_setFlag, if_pos rfl]
  · rw [(s.hit_blit x y n).2 collides]; rfl
  · rw [Bool.eq_false_iff.2 (mt (s.hit_blit x y n).1 misses)]; rfl

/-- The sprite depends on Vx, Vy, I and memory alone (44_display R201, R202). -/
theorem State.spriteOn_congr {s t : State} {x y : Nibble} (hx : t.getV x = s.getV x) (hy : t.getV y = s.getV y)
    (hi : s.kept t .index) (hmem : s.kept t .mem) (n : Nibble) (py px : Nat) :
    t.spriteOn x y n py px ↔ s.spriteOn x y n py px := by
  have reads : ∀ a, t.mem.read a = s.mem.read a := hmem
  have sameI : t.i = s.i := hi
  simp only [State.spriteOn, hx, hy, sameI, reads]

/-- Flipping twice with the same mask changes nothing. -/
theorem flip_twice (p q : Prop) : ¬(¬(p ↔ q) ↔ q) ↔ p := by
  by_cases hq : q <;> simp [hq]

/-- Settles O38: the first draw keeps what the sprite depends on, so the second flips the same pixels back; a pixel the
first turned on is one the second finds on. -/
theorem drawingTwiceRestoresTheScreen : Obligations.DrawingTwiceRestoresTheScreen := by
  intro x y n s hx hy fits
  obtain ⟨t, draws, flips, regs, -, keeps⟩ := drawFlipsExactlyTheSpritePixels x y n s fits
  have sameI : t.i = s.i := keeps .index (by decide)
  have sameSprite := State.spriteOn_congr (regs x hx) (regs y hy) sameI (keeps .mem (by decide)) n
  have fits' : n.toNat = 0 ∨ t.i.toNat + n.toNat - 1 ≤ 0xFFF := sameI ▸ fits
  obtain ⟨u, redraws, flipsBack, -⟩ := drawFlipsExactlyTheSpritePixels x y n t fits'
  obtain ⟨u', redraws', collides, -⟩ := drawReportsCollisionInVf x y n t fits'
  cases redraws.symm.trans redraws'
  refine ⟨t, u, draws, redraws, Framebuffer.ext_pixel _ _ fun py px hpy hpx => ?_, ?_⟩
  · rw [Bool.eq_iff_iff, flipsBack py px hpy hpx, flips py px hpy hpx, sameSprite]
    exact flip_twice _ _
  · rintro ⟨py, px, hpy, hpx, on, wasOff⟩
    have litNow : t.fb.pixel py px = true := (flips py px hpy hpx).2 (by simp [wasOff, on])
    exact collides ⟨py, px, hpy, hpx, (sameSprite py px).2 on, litNow⟩

end Sys2Proof.Machine

namespace Sys2Proof.Machine

/-! ### Keys and timers (spec/45_keys_timers.md) -/

/-- The key SKP and SKNP test, in the STEP's sample (45_keys R220, R227). -/
theorem State.keyDown_keyIndex (s : State) (b : Byte) : s.keyDown (keyIndex b) = s.keys.getLsbD (b.toNat % 16) := by
  rw [State.keyDown, keyIndex_eq_mod]

/-- Settles O39: each of the two is a skip (`exec_of_skipIf`), SKNP on the negated condition. -/
theorem keySkips : Obligations.KeySkips := by
  refine ⟨fun x s => ?_, fun x s => ?_⟩
  · rw [← s.keyDown_keyIndex]
    exact exec_of_skipIf (i := .skp x) rfl rfl
  · rw [← s.keyDown_keyIndex]
    simpa only [Bool.not_eq_true', ← Bool.not_eq_true, ite_not] using exec_of_skipIf (i := .sknp x) (s := s) rfl rfl

/-- Where some key is pressed, the selected one exists (45_keys R223). -/
theorem State.exists_selectedKey {s : State} (pressed : s.keys ≠ 0) : ∃ k, s.selectedKey = some k :=
  Option.ne_none_iff_exists'.1 (mt s.selectedKey_none.1 pressed)

/-- `LD Vx,K` with key k selected does what loading k as an immediate does (45_keys R224). -/
theorem exec_ldVxK_eq_ldKk {x : Nibble} {s : State} {k : Nat} (h : s.selectedKey = some k) :
    exec (.ldVxK x) s = exec (.ldKk x (BitVec.ofNat 8 k)) s :=
  execLdVxK_of_some x s k h

/-- Settles O42: the selected key is the least pressed one, and it is loaded as an immediate is. -/
theorem keyPressIsCaptured : Obligations.KeyPressIsCaptured := by
  intro x s pressed
  obtain ⟨k, selected⟩ := State.exists_selectedKey pressed
  obtain ⟨inPad, down, least⟩ := (s.selectedKey_some k).1 selected
  obtain ⟨t, loads, regs, ok, keeps⟩ := loadImmediateAndCopy.1 x (BitVec.ofNat 8 k) s
  refine ⟨t, k, (exec_ldVxK_eq_ldKk selected).trans loads, inPad, down, least, ?_, fun r hr => ?_, ok, keeps⟩
  · rw [regs, if_pos rfl, BitVec.toNat_ofNat]
    omega
  · rw [regs, if_neg hr]

/-- Sound is active exactly while ST is not 0 (10_state R39). -/
theorem State.soundActive_iff (s : State) : s.soundActive = true ↔ s.st.toNat ≠ 0 := by
  rw [State.soundActive, decide_eq_true_eq, ne_eq, ne_eq, ← BitVec.toNat_inj]; rfl

/-- Settles O40: one write of Vx, of DT and of ST. -/
theorem timerMoves : Obligations.TimerMoves := by
  refine ⟨fun x s => exec_of_setV rfl rfl, fun x s => ?_, fun x s => ?_⟩
  · have moves : exec (.ldDtVx x) s = .next { s with dt := s.getV x, result := .ok } := State.done_eq _
    exact ⟨_, moves, rfl, rfl, exec_keepsAllBut moves⟩
  · have moves : exec (.ldStVx x) s = .next { s with st := s.getV x, result := .ok } := State.done_eq _
    exact ⟨_, moves, rfl, State.soundActive_iff _, rfl, exec_keepsAllBut moves⟩

/-- Settles O41: with no key in the sample LD Vx,K takes back the advance of PC. -/
theorem keyWaitLeavesTheStateAsItWas : Obligations.KeyWaitLeavesTheStateAsItWas := by
  intro s b op x hop hf hd
  have pcBack : s.pc + 2 - 2 = s.consumeOp.pc := (BitVec.add_sub_cancel _ _).trans s.consumeOp_pc.symm
  have noKey : State.selectedKey { s.consumeOp with keys := 0, rnd := b, pc := s.pc + 2 } = none :=
    (State.selectedKey_none _).2 rfl
  rw [step_of_decodeWord_some hop hf hd, exec, execLdVxK_of_none _ _ noKey, pcBack]

end Sys2Proof.Machine

namespace Sys2Proof.Machine

/-! ### Stack faults and TICK (spec/60_exceptions.md) -/

/-- Settles O14: the end of CALL with no free slot is `execCall_of_full`. -/
theorem callOnAFullStackFaults : Obligations.CallOnAFullStackFaults := execCall_of_full

/-- Settles O16: the end of RET with no entry on the stack is `execRet_of_empty`. -/
theorem returnOnAnEmptyStackFaults : Obligations.ReturnOnAnEmptyStackFaults := execRet_of_empty

/-! #### Frames of several operations -/

section frames
variable {s t u : State} {ps qs : List Part}

theorem State.keepsAllBut_refl (s : State) (ps : List Part) : s.keepsAllBut ps s := by
  intro p _
  cases p <;> simp [State.kept]

/-- A frame stays true with more parts excepted. -/
theorem State.keepsAllBut.mono (h : s.keepsAllBut ps t) (hsub : ps ⊆ qs) : s.keepsAllBut qs t :=
  fun p hp => h p (fun hmem => hp (hsub hmem))

/-- Two operations, one after the other, keep what neither frame excepts. -/
theorem State.keepsAllBut.trans (hst : s.keepsAllBut ps t) (htu : t.keepsAllBut qs u) :
    s.keepsAllBut (ps ++ qs) u :=
  fun p hp => (hst p (mt (List.mem_append_left qs) hp)).trans (htu p (mt (List.mem_append_right ps) hp))

end frames

/-- Issuing an operation changes the host's own fields alone (10_state R40). -/
theorem State.consumeOp_keepsAllBut (s : State) : s.keepsAllBut [.host] s.consumeOp := by
  intro p hp
  cases p <;> simp [State.kept, State.getV] at hp ⊢

/-! #### TICK, once and n times in a row (60_exceptions R262) -/

/-- TICK takes one from each timer that is not 0, ends Ok and changes nothing else. -/
theorem State.tick_decrements (s : State) : ∃ t, s.tick = .next t ∧
    t.dt.toNat = s.dt.toNat - 1 ∧ t.st.toNat = s.st.toNat - 1 ∧ t.result = .ok ∧ s.keepsAllBut [.delay, .sound] t := by
  refine ⟨_, State.done_eq _, toNat_decrement _, toNat_decrement _, rfl, fun p hp => ?_⟩
  cases p <;> simp [State.kept, State.getV] at hp ⊢

/-- Where the host's operation is TICK, the step is the tick from the state with the operation issued. -/
theorem step_of_currentOp_tick {s : State} (h : s.currentOp = .tick) : step s = s.consumeOp.tick := by
  rw [step, h, perform]

/-- Issuing the TICK leaves the timers, so the step counts down those it began with. -/
theorem step_tick_decrements {s : State} (h : s.currentOp = .tick) : ∃ t, step s = .next t ∧
    t.dt.toNat = s.dt.toNat - 1 ∧ t.st.toNat = s.st.toNat - 1 ∧ t.result = .ok ∧
    s.consumeOp.keepsAllBut [.delay, .sound] t := by
  simpa only [step_of_currentOp_tick h, State.consumeOp_dt, State.consumeOp_st] using s.consumeOp.tick_decrements

/-- n TICKs in a row, by induction: the first leaves the script of the others and each timer one less or at 0. -/
theorem run_ticks_decrements (n : Nat) (s : State) (rest : List HostOp) (hs : s.script = List.replicate n .tick ++ rest) :
    ∃ t, Host.Core.run Sys2Proof.core n s = .next t ∧ t.dt.toNat = s.dt.toNat - n ∧ t.st.toNat = s.st.toNat - n ∧
      t.script = rest ∧ s.keepsAllBut [.delay, .sound, .host] t := by
  induction n generalizing s with
  | zero => exact ⟨s, rfl, rfl, rfl, hs, s.keepsAllBut_refl _⟩
  | succ n ih =>
    obtain ⟨t, ticks, dt, st, -, keeps⟩ := step_tick_decrements (s.currentOp_cons .tick _ hs)
    obtain ⟨-, -, script, -⟩ := keeps .host (by decide)
    have remaining : t.script = List.replicate n .tick ++ rest := by
      rw [script, State.consumeOp_script, hs]; rfl
    obtain ⟨u, runs, dt', st', done, keeps'⟩ := ih t remaining
    refine ⟨u, (run_succ_of_next Sys2Proof.core n s t ticks).trans runs, by omega, by omega, done, ?_⟩
    exact ((s.consumeOp_keepsAllBut.trans keeps).trans keeps').mono (by simp)

/-- Settles O43: one TICK, and n in a row. -/
theorem tickDecrementsBothTimers : Obligations.TickDecrementsBothTimers :=
  ⟨fun _ => step_tick_decrements, run_ticks_decrements⟩

end Sys2Proof.Machine

namespace Sys2Proof.Machine

/-! ### RESET and LOAD (spec/70_reset_and_hazards.md) -/

/-- Settles O45: issuing the RESET leaves the inputs, and RESET keeps them and the host's own fields. -/
theorem resetWorksFromAnyState : Obligations.ResetWorksFromAnyState := by
  intro s hop
  rw [step, hop, perform, State.done_eq, State.resetCore, State.consumeOp_keys, State.consumeOp_rnd]

/-- Where the host's operation is LOAD, the step loads from the state with the operation issued. -/
theorem step_of_currentOp_load {s : State} {bytes : List Byte} (h : s.currentOp = .load bytes) :
    step s = s.consumeOp.loadImage bytes := by
  rw [step, h, perform]

/-- Settles O47: the length check comes before the reset and the copy. -/
theorem loadRejectsALongImage : Obligations.LoadRejectsALongImage := fun s bytes hop long =>
  (step_of_currentOp_load hop).trans (s.consumeOp.loadImage_long bytes long)

section
variable (m : Memory) {bytes : List Byte} (fits : bytes.length ≤ 3584)
include fits

/-- Byte k of an image that fits is read back at 0x200 + k (70_reset R283). -/
theorem Memory.read_writeBytes_image {k : Nat} (hk : k < bytes.length) :
    (m.writeBytes 0x200 bytes).read (0x200 + k) = bytes.getD k 0 := by
  rw [m.read_writeBytes _ _ _ (by omega), if_pos (by omega), Nat.add_sub_cancel_left]

/-- Outside its own addresses an image that fits changes no byte (70_reset R284). -/
theorem Memory.read_writeBytes_outside_image {a : Nat} (ha : a < 0x200 ∨ 0x200 + bytes.length ≤ a) :
    (m.writeBytes 0x200 bytes).read a = m.read a := by
  rw [m.read_writeBytes _ _ _ (by omega), if_neg (by omega)]

end

/-- RESET leaves the core at its reset values, whatever the host's fields and whatever memory is loaded on top of it. -/
theorem State.reset_keepsAllBut_loaded (s : State) (m : Memory) :
    State.reset.keepsAllBut [.mem, .host] { s.resetCore with mem := m, result := .ok } := by
  intro p hp
  cases p <;> simp [State.kept, State.getV] at hp ⊢

/-- Settles O46: the image is written over the memory of the reset state. -/
theorem loadCopiesTheImage : Obligations.LoadCopiesTheImage := by
  intro s bytes hop fits
  have loads := (step_of_currentOp_load hop).trans (s.consumeOp.loadImage_fits bytes fits)
  exact ⟨_, loads.trans (State.done_eq _), fun k => Memory.read_writeBytes_image _ fits,
    fun a => Memory.read_writeBytes_outside_image _ fits, rfl, s.consumeOp.reset_keepsAllBut_loaded _⟩

end Sys2Proof.Machine
